-- ==== Sys2Proof/Word.lean ====
section
/-! DEFINITION. The word types of FLG: the 64-bit data word of R72, which is an F-word (IEEE 754 binary64, R8) or a
U-word (an unsigned integer), and the 32-bit command word of R71. -/

namespace Sys2Proof

/-- A value of type `F` in the 64-bit word that holds it (R8, R72). Its parts are those of the format `F`, a parameter
(R6); of binary64 (decision D1) they are bit 63 sign, bits 62:52 biased exponent, bits 51:0 fraction. -/
abbrev F := BitVec 64

/-- A 64-bit data word of the command port (R70, R72); an F-word and a U-word carry no tag. -/
abbrev DataWord := BitVec 64

/-- A command word (R70, R71). -/
abbrev CmdWord := BitVec 32

/-- `+0.0` (R8): the zero word in every format. -/
def posZero : F := 0x0000000000000000

end Sys2Proof
end

