-- ==== Sys2Proof/Config.lean ====
section
/-! DEFINITION. The parameters of FLG (R6). Each is a field of `Parameters`, and every rule that depends on one takes it
as an argument: the whole record, the number format `fm`, or a width. The values the spec gives stand beside the record,
and `Config.params` (Machine/Sine.lean) is the record that holds them: the machine that `step` runs. Where a rule takes
only a format or a width, the spec's value is that argument's default, so that a statement about the spec's FLG need not
repeat it; the rules themselves never use a default but pass on what they are given. What the spec leaves open is an
opaque constant with no body (R16). -/

namespace Sys2Proof

/-! ### The number format -/

/-- A binary interchange format of IEEE 754 (R6 `F`, decision D1): from the top a sign bit, the biased exponent and the
fraction (R8). -/
structure Format where
  /-- The width of the biased exponent. -/
  expW : Nat
  /-- The width of the fraction. -/
  fracW : Nat
  deriving DecidableEq, Repr

/-- IEEE 754 binary64 (R6, R8, decision D1). -/
def Config.binary64 : Format := ⟨11, 52⟩

/-! ### The values the spec gives -/

/-- `TWO_PI`, the binary64 nearest to 2π (R6, decision D3). -/
def Config.twoPi : F := 0x401921FB54442D18

/-- `MAX_DELAY` is one over this many seconds: `CAP = SAMPLE_RATE div 20` (R6, R144, decision D10). -/
def Config.capDivisor : Nat := 20

/-- `IDX_W`, the width of `WCUR` and of every buffer index, `ceil(log2(CAP_MAX))` (R6, decision D10). -/
def Config.idxW : Nat := 16

/-- `N_W`, the width of the block-length field of BLOCK, which is the field `ARG` of a command word (R6, R71, R77,
decision D5). -/
def Config.nW : Nat := 24

/-- `CAP_MAX`, the depth of the sample memory in words (R6, decision D10). -/
def Config.capMax : Nat := 65536

/-- `SR_RESET`, 144000 Hz (R6, decision D13). -/
def Config.srReset : BitVec 64 := 144000

/-- `BLK_RESET`, which the spec leaves open; no rule reads it (R6, R28, U11). DESIGN CHOICE, safe: log 6. -/
opaque Config.blkReset : BitVec 64

/-- `DEPTH_RESET`, 0.008 s (R6, R29). -/
def Config.depthReset : F := 0x3F80624DD2F1A9FC

/-- `MODF_RESET`, 0.25 Hz (R6, decision D13). -/
def Config.modFreqReset : F := 0x3FD0000000000000

/-- `DRY_RESET`, 0.7 (R6, R31). -/
def Config.dryReset : F := 0x3FE6666666666666

/-- `WET_RESET`, 0.5 (R6, R31). -/
def Config.wetReset : F := 0x3FE0000000000000

/-- `SIN_EPS`, the bound on the error of the sine (R6, R103 P4). -/
def Config.sinEps : Rat := 1 / 2 ^ 52

/-- The sign and the payload of the `n`-th NaN that an operation of FLG produced: a draw, of which nothing is known
(R120, U4, decision D29); `drawNaN` brings the payload into the range of the format. DESIGN CHOICE, safe: log 8. -/
opaque Config.nanPayload : Nat → Bool × Nat

/-! ### The configuration of one FLG -/

/-- The parameters that the rules read (R6, R14, and the open parameters of 92_eei_decisions.md): one FLG is built with
one value of each. -/
structure Parameters where
  /-- `F`, the number format. -/
  format : Format
  /-- `SIN`, the sine function of the oscillator (R103). -/
  sin : F → F
  /-- `SIN_EPS`, the bound on its error. -/
  sinEps : Rat
  /-- `TWO_PI`. -/
  twoPi : F
  /-- The wrap comparison: whether a phase equal to `TWO_PI` wraps (R102, decision D16). -/
  wrapsAtEqual : Bool
  /-- One over `MAX_DELAY`, in Hz. -/
  capDivisor : Nat
  /-- `CAP_MAX`. -/
  capMax : Nat
  /-- `IDX_W`, `ceil(log2(CAP_MAX))`. -/
  idxW : Nat
  /-- `N_W`. -/
  nW : Nat
  /-- `SR_RESET`. -/
  srReset : BitVec 64
  /-- `BLK_RESET`. -/
  blkReset : BitVec 64
  /-- `DEPTH_RESET`. -/
  depthReset : F
  /-- `MODF_RESET`. -/
  modFreqReset : F
  /-- `DRY_RESET`. -/
  dryReset : F
  /-- `WET_RESET`. -/
  wetReset : F

/-- What R6 says of the parameters together: a value of `F` fits its data word (R72), there is at least one delay
interval in a second, `IDX_W` is `ceil(log2(CAP_MAX))`, and both fields of the command word have at least four bits, which
hold the register ids up to 13 and the opcodes up to 0x09 (R37, R71, R74). -/
def parametersOk (pm : Parameters) : Bool :=
  decide (2 ≤ pm.format.expW) && decide (1 + (pm.format.expW + pm.format.fracW) ≤ 64) && decide (1 ≤ pm.capDivisor) &&
    decide (pm.capMax ≤ 2 ^ pm.idxW) && decide (pm.idxW = 0 ∨ 2 ^ (pm.idxW - 1) < pm.capMax) &&
    decide (4 ≤ pm.nW) && decide (pm.nW + 4 ≤ 32)

end Sys2Proof
end

