-- ==== Sys2Proof/Syntax.lean ====
section
/-! DEFINITION. The nine commands of FLG (R74): one constructor per row of spec/opcode_table.json, each with the
operands of R77 (the field or register its ARG names, and the input data words that come with the command word). -/

namespace Sys2Proof

/-- The config fields that CFG_WR names (R75). -/
inductive CfgField where
  | sampleRate
  | blockSize
  | depth
  | modFreq
  | dryGain
  | wetGain
  deriving DecidableEq, Repr

/-- The registers that RD names (R37, R76). -/
inductive RegName where
  | cfg (f : CfgField)
  | lstate
  | errCause
  | cap
  | phaseInc
  | wcur
  | phase
  deriving DecidableEq, Repr

/-- A command with its operands (R70, R74, R77). -/
inductive Instr where
  /-- CFG_WR: store `v` into the config register `f` (R141). -/
  | cfgWr (f : CfgField) (v : DataWord)
  /-- CFG_COMMIT: validate the configuration and freeze it (R142). -/
  | cfgCommit
  /-- OPEN: create the engine state (R146). -/
  | openStream
  /-- START: admit samples from now on (R147). -/
  | startStream
  /-- STEP: one input sample, one output sample (R110). -/
  | step (x : F)
  /-- BLOCK: the input samples in order; the block length `N` is their number (R130, R131). -/
  | block (xs : List F)
  /-- STOP: admit no more samples (R148). -/
  | stopStream
  /-- CLOSE: destroy the engine state (R149). -/
  | closeStream
  /-- RD: answer the value of register `r` (R150). -/
  | rd (r : RegName)
  deriving DecidableEq, Repr

end Sys2Proof
end

