-- ==== Sys2Proof/WellFormed.lean ====
section
/-! DEFINITION. Which terms of `Instr` are commands the encoding can spell. Field and register names are spelled by
their types; the one check left is the length of a block. -/

namespace Sys2Proof

/-- The block length `N` of BLOCK is a field of `N_W` bits: of 24 bits, `0 <= N <= 2^24 - 1` (R6, R77, R135). -/
def blockLengthFits (xs : List F) (nW : Nat := Config.nW) : Bool := decide (xs.length < 2 ^ nW)

/-- An instruction the command word can spell (R71, R77). -/
def wellFormed (i : Instr) (nW : Nat := Config.nW) : Bool :=
  match i with
  | .cfgWr _ _ => true
  | .cfgCommit => true
  | .openStream => true
  | .startStream => true
  | .step _ => true
  | .block xs => blockLengthFits xs nW
  | .stopStream => true
  | .closeStream => true
  | .rd _ => true

end Sys2Proof
end

