-- ==== Sys2Proof/Decode.lean ====
section
/-! DEFINITION. The decoder and encoder of the command port (30_encoding.md). A transaction is a command word and a
list of data words (R70); the decoder is total (R81): it answers one of the nine commands or the case of R80 that
refuses the transaction. The field `ARG` is `N_W` bits wide, 24 at the spec's width, and `OPC` is what lies above it
(R6, R71). Pseudo-commands (R84) expand to lists of commands. -/

namespace Sys2Proof

/-- Why a transaction spells no command: the cases (a) to (e) of R80. -/
inductive DecodeError where
  /-- (a) `OPC` is 0x00 or 0x0A to 0xFF. -/
  | reservedOpcode
  /-- (b) a must-be-zero `ARG` is not zero (R79). -/
  | nonZeroArg
  /-- (c) CFG_WR with a field id above 5. -/
  | noSuchField
  /-- (d) RD with register id 6, 7 or above 13. -/
  | noSuchRegister
  /-- (e) the number of input data words differs from `nin` (R78). -/
  | wrongDataCount
  deriving DecidableEq, Repr

/-- `OPC = word[31:24]` (R71). -/
def opcOf (w : CmdWord) (nW : Nat := Config.nW) : Nat := w.toNat / 2 ^ nW

/-- `ARG = word[23:0]`, unsigned, zero-extended (R71, R77). -/
def argOf (w : CmdWord) (nW : Nat := Config.nW) : Nat := w.toNat % 2 ^ nW

/-- The command word with the given `OPC` and `ARG` (R71). -/
def cmdWord (opc arg : Nat) (nW : Nat := Config.nW) : CmdWord := BitVec.ofNat 32 (opc * 2 ^ nW + arg)

/-- The config field ids of R75. -/
def fieldOfId : Nat → Option CfgField
  | 0 => some .sampleRate
  | 1 => some .blockSize
  | 2 => some .depth
  | 3 => some .modFreq
  | 4 => some .dryGain
  | 5 => some .wetGain
  | _ => none

/-- The id of a config field (R75). -/
def idOfField : CfgField → Nat
  | .sampleRate => 0
  | .blockSize => 1
  | .depth => 2
  | .modFreq => 3
  | .dryGain => 4
  | .wetGain => 5

/-- The register ids of R37 and R76; 6, 7 and everything above 13 name no register. -/
def regOfId : Nat → Option RegName
  | 8 => some .lstate
  | 9 => some .errCause
  | 10 => some .cap
  | 11 => some .phaseInc
  | 12 => some .wcur
  | 13 => some .phase
  | n => (fieldOfId n).map .cfg

/-- The id of a register (R37). -/
def idOfReg : RegName → Nat
  | .cfg f => idOfField f
  | .lstate => 8
  | .errCause => 9
  | .cap => 10
  | .phaseInc => 11
  | .wcur => 12
  | .phase => 13

/-- A command whose `ARG` must be zero (R79) and that takes no data word (R78). -/
def decodePlain (i : Instr) (arg : Nat) (data : List DataWord) : Except DecodeError Instr :=
  if arg ≠ 0 then .error .nonZeroArg
  else if data.isEmpty then .ok i
  else .error .wrongDataCount

/-- CFG_WR: field id in `ARG`, one data word (R74, R80 (c)). -/
def decodeCfgWr (arg : Nat) (data : List DataWord) : Except DecodeError Instr :=
  match fieldOfId arg with
  | none => .error .noSuchField
  | some f =>
    match data with
    | [v] => .ok (.cfgWr f v)
    | _ => .error .wrongDataCount

/-- STEP: `ARG` zero, one data word (R74, R79). -/
def decodeStep (arg : Nat) (data : List DataWord) : Except DecodeError Instr :=
  if arg ≠ 0 then .error .nonZeroArg
  else
    match data with
    | [x] => .ok (.step x)
    | _ => .error .wrongDataCount

/-- BLOCK: `ARG` is the number `N` of data words (R74, R131). -/
def decodeBlock (arg : Nat) (data : List DataWord) : Except DecodeError Instr :=
  if data.length = arg then .ok (.block data) else .error .wrongDataCount

/-- RD: register id in `ARG`, no data word (R74, R80 (d)). -/
def decodeRd (arg : Nat) (data : List DataWord) : Except DecodeError Instr :=
  match regOfId arg with
  | none => .error .noSuchRegister
  | some r => if data.isEmpty then .ok (.rd r) else .error .wrongDataCount

/-- The command a transaction spells, or the case of R80 that refuses it (R74, R80, R81). -/
def decode (w : CmdWord) (data : List DataWord) (nW : Nat := Config.nW) : Except DecodeError Instr :=
  match opcOf w nW with
  | 0x01 => decodeCfgWr (argOf w nW) data
  | 0x02 => decodePlain .cfgCommit (argOf w nW) data
  | 0x03 => decodePlain .openStream (argOf w nW) data
  | 0x04 => decodePlain .startStream (argOf w nW) data
  | 0x05 => decodeStep (argOf w nW) data
  | 0x06 => decodeBlock (argOf w nW) data
  | 0x07 => decodePlain .stopStream (argOf w nW) data
  | 0x08 => decodePlain .closeStream (argOf w nW) data
  | 0x09 => decodeRd (argOf w nW) data
  | _ => .error .reservedOpcode

/-- The command word of an instruction (R74). -/
def encodeWord (i : Instr) (nW : Nat := Config.nW) : CmdWord :=
  match i with
  | .cfgWr f _ => cmdWord 0x01 (idOfField f) nW
  | .cfgCommit => cmdWord 0x02 0 nW
  | .openStream => cmdWord 0x03 0 nW
  | .startStream => cmdWord 0x04 0 nW
  | .step _ => cmdWord 0x05 0 nW
  | .block xs => cmdWord 0x06 xs.length nW
  | .stopStream => cmdWord 0x07 0 nW
  | .closeStream => cmdWord 0x08 0 nW
  | .rd r => cmdWord 0x09 (idOfReg r) nW

/-- The input data words of an instruction, in the order they are presented (R77). -/
def encodeData : Instr → List DataWord
  | .cfgWr _ v => [v]
  | .cfgCommit => []
  | .openStream => []
  | .startStream => []
  | .step x => [x]
  | .block xs => xs
  | .stopStream => []
  | .closeStream => []
  | .rd _ => []

/-- The transaction that spells an instruction: its command word and its data words (R70, R83). -/
def encode (i : Instr) (nW : Nat := Config.nW) : CmdWord × List DataWord := (encodeWord i nW, encodeData i)

/-- `nin` of a command word: how many input data words it announces (R78). -/
def dataCount (w : CmdWord) (nW : Nat := Config.nW) : Nat :=
  match opcOf w nW with
  | 0x01 => 1
  | 0x05 => 1
  | 0x06 => argOf w nW
  | _ => 0

/-- The pseudo-command `cfg_depth v` (R84). -/
def pseudoCfgDepth (v : F) : List Instr := [.cfgWr .depth v]

/-- The pseudo-command `init` (R84), for a host whose every response is `OK`. -/
def pseudoInit : List Instr := [.cfgCommit, .openStream, .startStream]

/-- The pseudo-command `shutdown` (R84). -/
def pseudoShutdown : List Instr := [.stopStream, .closeStream]

/-- The command word among the table's bits: bits 31:0, those at or above `nbits` zero. -/
def tableWord (nbits w : Nat) : CmdWord := BitVec.ofNat 32 (w % 2 ^ nbits)

/-- Data word `k` among the table's bits: the data words follow the command word, bits 32 and up, in order, those at
or above `nbits` zero. -/
def tableDataWord (nbits w k : Nat) : DataWord := BitVec.ofNat 64 ((w % 2 ^ nbits) / 2 ^ (32 + 64 * k))

/-- The data words that belong to the command word among the table's bits (R78). -/
def tableData (nbits w : Nat) : List DataWord :=
  (List.range (dataCount (tableWord nbits w))).map (tableDataWord nbits w)

/-- The instruction the decoder reads from the bits `w` of a row of spec/opcode_table.json that gives `nbits` bits. -/
def decodeTableWord (nbits w : Nat) : Option Instr :=
  (decode (tableWord nbits w) (tableData nbits w)).toOption

end Sys2Proof
end

