-- ==== Sys2Proof/Machine/Flags.lean ====
section
/-! DEFINITION. FLG has no status flags and no operation sets one (R34). What its rules test instead are the IEEE 754
classes and comparisons of R8, and those stand here: the parts of a word of the format `fm`, `isNaN`, `isInf`,
`isFinite`, `fge` and the strict comparisons. The bit numbers in the docstrings are those of binary64. -/

namespace Sys2Proof.Machine

/-- The sign bit, bit 63 (R8). -/
def isNeg (a : F) (fm : Format := Config.binary64) : Bool :=
  decide (a.toNat / 2 ^ (fm.expW + fm.fracW) % 2 = 1)

/-- Bits 62:0, exponent and fraction as one number; among the values that are not NaN it grows with the magnitude. -/
def magOf (a : F) (fm : Format := Config.binary64) : Nat := a.toNat % 2 ^ (fm.expW + fm.fracW)

/-- The `magOf` of an infinity: biased exponent all ones, fraction zero (R8). -/
def infMag (fm : Format := Config.binary64) : Nat := (2 ^ fm.expW - 1) * 2 ^ fm.fracW

/-- A NaN: biased exponent all ones, fraction not zero (R8). -/
def isNaN (a : F) (fm : Format := Config.binary64) : Bool := decide (infMag fm < magOf a fm)

/-- An infinity of either sign (R8). -/
def isInf (a : F) (fm : Format := Config.binary64) : Bool := decide (magOf a fm = infMag fm)

/-- Neither a NaN nor an infinity (R8). -/
def isFinite (a : F) (fm : Format := Config.binary64) : Bool := decide (magOf a fm < infMag fm)

/-- A number that orders the values that are not NaN as IEEE 754 does; the two zeros get the same number. -/
def orderKey (a : F) (fm : Format := Config.binary64) : Int :=
  if isNeg a fm then -(magOf a fm : Int) else (magOf a fm : Int)

/-- The IEEE comparison `a >= b`, false when either is NaN (R8). -/
def fge (a b : F) (fm : Format := Config.binary64) : Bool :=
  !isNaN a fm && !isNaN b fm && decide (orderKey b fm ≤ orderKey a fm)

/-- The IEEE comparison `a > b`, false when either is NaN (R8). -/
def fgt (a b : F) (fm : Format := Config.binary64) : Bool :=
  !isNaN a fm && !isNaN b fm && decide (orderKey b fm < orderKey a fm)

/-- The IEEE comparison `a < b`, false when either is NaN (R8). -/
def flt (a b : F) (fm : Format := Config.binary64) : Bool := fgt b a fm

end Sys2Proof.Machine
end

