-- ==== Sys2Proof/Machine/Float.lean ====
section
/-! DEFINITION. The IEEE 754 operations of R8, in the number format `fm` (R6 `F`): each computes its result exactly in
integers and rounds once, to nearest, ties to even; subnormals are kept, there are no exception flags and no traps. A
finite value is an integer number of UNITS, the smallest subnormal: of binary64 `2^-1074`. Where an operation's result
is a NaN, which NaN is not fixed (R120): the operation answers the NaN it is handed as `nan`. The numbers in the
docstrings are those of binary64. -/

namespace Sys2Proof.Machine

/-- One in units of `2^-1074`: the smallest subnormal is two to the power of 2 less the exponent bias less the width of
the fraction, and the bias 1023 is one less than `2 ^ (expW - 1)`. -/
def oneUnits (fm : Format := Config.binary64) : Nat := 1 <<< (2 ^ (fm.expW - 1) + fm.fracW - 2)

/-- The magnitude, in units, that bits 62:0 of a finite word denote (R8): a subnormal's fraction, or the fraction with
its hidden bit shifted by the biased exponent less one. -/
def unitsOfMag (m : Nat) (fm : Format := Config.binary64) : Nat :=
  if m / 2 ^ fm.fracW = 0 then m % 2 ^ fm.fracW
  else (2 ^ fm.fracW + m % 2 ^ fm.fracW) <<< (m / 2 ^ fm.fracW - 1)

/-- The value of a finite word, in units, with its sign. -/
def unitsOf (a : F) (fm : Format := Config.binary64) : Int :=
  if isNeg a fm then -(unitsOfMag (magOf a fm) fm : Int) else (unitsOfMag (magOf a fm) fm : Int)

/-- `n / d` rounded to the nearest integer, ties to even. -/
def roundHalfEven (n d : Nat) : Nat :=
  if 2 * (n % d) < d then n / d
  else if d < 2 * (n % d) then n / d + 1
  else n / d + (n / d) % 2

/-- How far the significand of `n / d` units is scaled down to fit 53 bits. -/
def scaleOf (n d : Nat) (fm : Format := Config.binary64) : Nat := (n / d).log2 - fm.fracW

/-- Bits 62:0 of the binary64 nearest to `n / d` units, ties to even, overflow to infinity. The biased exponent is
`scaleOf + 1` for a normal result and 0 for a subnormal one; adding the significand to `scaleOf * 2^52` gives both,
and carries a significand that rounds up to `2^53`. -/
def roundMag (n d : Nat) (fm : Format := Config.binary64) : Nat :=
  min (roundHalfEven n (d <<< scaleOf n d fm) + scaleOf n d fm * 2 ^ fm.fracW) (infMag fm)

/-- The word with the given sign and bits 62:0. -/
def pack (neg : Bool) (m : Nat) (fm : Format := Config.binary64) : F :=
  BitVec.ofNat 64 (if neg then 2 ^ (fm.expW + fm.fracW) + m else m)

/-- `1.0`, the constant of `1 + sin(phase)` (R100): the biased exponent is the bias, the fraction zero. -/
def one (fm : Format := Config.binary64) : F := pack false ((2 ^ (fm.expW - 1) - 1) * 2 ^ fm.fracW) fm

/-- `-1.0`, the lower bound of the sine (R103 P3). -/
def minusOne (fm : Format := Config.binary64) : F := pack true ((2 ^ (fm.expW - 1) - 1) * 2 ^ fm.fracW) fm

/-- `a` with its sign flipped. -/
def fneg (a : F) (fm : Format := Config.binary64) : F := pack (!isNeg a fm) (magOf a fm) fm

/-- The sum of two finite values: exact in units, rounded once; an exact zero is `-0.0` only when both are. -/
def faddFinite (a b : F) (fm : Format := Config.binary64) : F :=
  if unitsOf a fm + unitsOf b fm = 0 then pack (isNeg a fm && isNeg b fm) 0 fm
  else pack (decide (unitsOf a fm + unitsOf b fm < 0)) (roundMag (unitsOf a fm + unitsOf b fm).natAbs 1 fm) fm

/-- `fadd(a,b)` (R8). -/
def fadd (nan a b : F) (fm : Format := Config.binary64) : F :=
  if isNaN a fm || isNaN b fm then nan
  else if isInf a fm then (if isInf b fm && isNeg a fm != isNeg b fm then nan else a)
  else if isInf b fm then b
  else faddFinite a b fm

/-- `fsub(a,b)` (R8): the sum with `b` negated. -/
def fsub (nan a b : F) (fm : Format := Config.binary64) : F := fadd nan a (fneg b fm) fm

/-- `fmul(a,b)` (R8): NaN for an infinity times a zero. -/
def fmul (nan a b : F) (fm : Format := Config.binary64) : F :=
  if isNaN a fm || isNaN b fm then nan
  else if isInf a fm || isInf b fm then
    (if magOf a fm = 0 || magOf b fm = 0 then nan else pack (isNeg a fm != isNeg b fm) (infMag fm) fm)
  else
    pack (isNeg a fm != isNeg b fm)
      (roundMag (unitsOfMag (magOf a fm) fm * unitsOfMag (magOf b fm) fm) (oneUnits fm) fm) fm

/-- `fdiv(a,b)` (R8): NaN for zero by zero and infinity by infinity, an infinity for a finite non-zero value by zero. -/
def fdiv (nan a b : F) (fm : Format := Config.binary64) : F :=
  if isNaN a fm || isNaN b fm then nan
  else if isInf a fm then (if isInf b fm then nan else pack (isNeg a fm != isNeg b fm) (infMag fm) fm)
  else if isInf b fm then pack (isNeg a fm != isNeg b fm) 0 fm
  else if magOf b fm = 0 then (if magOf a fm = 0 then nan else pack (isNeg a fm != isNeg b fm) (infMag fm) fm)
  else
    pack (isNeg a fm != isNeg b fm)
      (roundMag (unitsOfMag (magOf a fm) fm * oneUnits fm) (unitsOfMag (magOf b fm) fm) fm) fm

/-- `of_uint(n)`, exact for `n` below `2^53` (R8). -/
def ofUint (n : Nat) (fm : Format := Config.binary64) : F := pack false (roundMag (n * oneUnits fm) 1 fm) fm

/-- `ffloor_int(a)`: the mathematical floor of a finite non-negative value (R8); `none` for a NaN, an infinity and a
negative value, of which R125 says that no value is given. -/
def ffloorInt (a : F) (fm : Format := Config.binary64) : Option Nat :=
  if isFinite a fm && fge a posZero fm then some (unitsOfMag (magOf a fm) fm / oneUnits fm) else none

/-- The real number a finite word denotes, as a rational (R8). -/
def ratOf (a : F) (fm : Format := Config.binary64) : Rat := (unitsOf a fm : Rat) / (oneUnits fm : Rat)

end Sys2Proof.Machine
end

