-- ==== Sys2Proof/Laws/Float.lean ====
section
/-! SUPPORT. What is proved once of the binary64 operations of Machine/Float.lean: the parts of a packed word, the
order of magnitudes, and the three laws of rounding (monotone, exact on representable values, and so bounded by any
representable bound), from which the laws of the operations follow. -/

namespace Sys2Proof.Laws

open Sys2Proof Sys2Proof.Machine

/-! ### The parts of a word -/

/-- Sign, exponent and fraction fill the 64-bit word of R8 and R72. -/
theorem width_of_F : 1 + (Config.binary64.expW + Config.binary64.fracW) = 64 := rfl

theorem isNeg_eq (a : F) : isNeg a = decide (2 ^ 63 ≤ a.toNat) := by
  have := a.isLt
  show decide (a.toNat / 2 ^ 63 % 2 = 1) = _
  rw [decide_eq_decide]
  omega

theorem magOf_eq (a : F) : magOf a = a.toNat % 2 ^ 63 := rfl

theorem pack_eq (s : Bool) (m : Nat) : pack s m = BitVec.ofNat 64 (if s then 2 ^ 63 + m else m) := rfl

theorem scaleOf_eq (n d : Nat) : scaleOf n d = (n / d).log2 - 52 := rfl

theorem roundMag_eq (n d : Nat) :
    roundMag n d = min (roundHalfEven n (d <<< scaleOf n d) + scaleOf n d * 2 ^ 52) infMag := rfl

theorem oneUnits_eq : oneUnits = 2 ^ 1074 := by
  rw [oneUnits, Nat.one_shiftLeft, show 2 ^ (Config.binary64.expW - 1) + Config.binary64.fracW - 2 = 1074 from by decide]

theorem oneUnits_pos : 0 < oneUnits := by rw [oneUnits_eq]; positivity

theorem infMag_eq : infMag = 2047 * 2 ^ 52 := by decide

theorem infMag_lt : infMag < 2 ^ 63 := by decide

theorem toNat_pack (s : Bool) (m : Nat) (hm : m < 2 ^ 63) :
    (pack s m).toNat = if s then 2 ^ 63 + m else m := by
  rw [pack_eq, BitVec.toNat_ofNat, Nat.mod_eq_of_lt]
  split <;> omega

@[simp] theorem magOf_pack (s : Bool) {m : Nat} (hm : m < 2 ^ 63) : magOf (pack s m) = m := by
  rw [magOf_eq, toNat_pack s m hm]
  split <;> omega

@[simp] theorem isNeg_pack (s : Bool) {m : Nat} (hm : m < 2 ^ 63) : isNeg (pack s m) = s := by
  rw [isNeg_eq, toNat_pack s m hm]
  cases s
  · simpa using hm
  · simp

theorem magOf_lt (a : F) : magOf a < 2 ^ 63 := Nat.mod_lt _ (by positivity)

theorem toNat_eq (a : F) : a.toNat = if isNeg a then 2 ^ 63 + magOf a else magOf a := by
  have := a.isLt
  simp only [isNeg_eq, magOf_eq, decide_eq_true_eq]
  split <;> omega

theorem pack_parts (a : F) : pack (isNeg a) (magOf a) = a := by
  apply BitVec.eq_of_toNat_eq
  rw [toNat_pack _ _ (magOf_lt a), ← toNat_eq]

theorem ext_parts {a b : F} (hs : isNeg a = isNeg b) (hm : magOf a = magOf b) : a = b := by
  rw [← pack_parts a, ← pack_parts b, hs, hm]

/-! ### Classes and comparisons -/

theorem isFinite_iff (a : F) : isFinite a = true ↔ magOf a < infMag := by simp [isFinite]

theorem isNaN_iff (a : F) : isNaN a = true ↔ infMag < magOf a := by simp [isNaN]

theorem isInf_iff (a : F) : isInf a = true ↔ magOf a = infMag := by simp [isInf]

theorem isNaN_of_isFinite {a : F} (h : isFinite a = true) : isNaN a = false := by
  rw [isFinite_iff] at h; simp [isNaN]; omega

theorem isInf_of_isFinite {a : F} (h : isFinite a = true) : isInf a = false := by
  rw [isFinite_iff] at h; simp [isInf]; omega

theorem fge_iff {a b : F} :
    fge a b = true ↔ isNaN a = false ∧ isNaN b = false ∧ orderKey b ≤ orderKey a := by
  simp [fge, and_assoc]

theorem flt_iff {a b : F} :
    flt a b = true ↔ isNaN a = false ∧ isNaN b = false ∧ orderKey a < orderKey b := by
  simp [flt, fgt, and_assoc, and_left_comm]

theorem fgt_iff {a b : F} :
    fgt a b = true ↔ isNaN a = false ∧ isNaN b = false ∧ orderKey b < orderKey a := by
  simp [fgt, and_assoc]

theorem orderKey_of_pos {a : F} (h : isNeg a = false) : orderKey a = magOf a := by simp [orderKey, h]

theorem orderKey_pack_false {m : Nat} (hm : m < 2 ^ 63) : orderKey (pack false m) = m := by
  rw [orderKey_of_pos (isNeg_pack false hm), magOf_pack false hm]

@[simp] theorem orderKey_posZero : orderKey posZero = 0 := by decide

@[simp] theorem isNaN_posZero : isNaN posZero = false := by decide

@[simp] theorem isFinite_posZero : isFinite posZero = true := by decide

/-! ### Magnitudes in units -/

theorem unitsOfMag_eq (m : Nat) :
    unitsOfMag m = if m / 2 ^ 52 = 0 then m % 2 ^ 52 else (2 ^ 52 + m % 2 ^ 52) * 2 ^ (m / 2 ^ 52 - 1) := by
  rw [← Nat.shiftLeft_eq]; rfl

/-- A magnitude with biased exponent `e + 1` and fraction `f`. -/
theorem unitsOfMag_normal (e f : Nat) (hf : f < 2 ^ 52) :
    unitsOfMag ((e + 1) * 2 ^ 52 + f) = (2 ^ 52 + f) * 2 ^ e := by
  have h1 : ((e + 1) * 2 ^ 52 + f) / 2 ^ 52 = e + 1 := by omega
  have h2 : ((e + 1) * 2 ^ 52 + f) % 2 ^ 52 = f := by omega
  rw [unitsOfMag_eq, h1, h2, if_neg (by omega), Nat.add_sub_cancel]

theorem unitsOfMag_subnormal (f : Nat) (hf : f < 2 ^ 52) : unitsOfMag f = f := by
  rw [unitsOfMag_eq, if_pos (by omega)]; omega

@[simp] theorem unitsOfMag_zero : unitsOfMag 0 = 0 := unitsOfMag_subnormal 0 (by positivity)

@[simp] theorem magOf_posZero : magOf posZero = 0 := by decide

@[simp] theorem unitsOf_posZero : unitsOf posZero = 0 := by simp [unitsOf]

/-- A scale and a significand of at most `2^53` give the magnitude that `roundMag` builds from them. -/
theorem unitsOfMag_scaled (k g : Nat) (hg : g ≤ 2 ^ 53) (hn : k = 0 ∨ 2 ^ 52 ≤ g) :
    unitsOfMag (g + k * 2 ^ 52) = g * 2 ^ k := by
  rcases lt_or_ge g (2 ^ 52) with h | h
  · obtain rfl : k = 0 := by omega
    simpa using unitsOfMag_subnormal g h
  · rcases Nat.lt_or_ge g (2 ^ 53) with h3 | h3
    · have e : g + k * 2 ^ 52 = (k + 1) * 2 ^ 52 + (g - 2 ^ 52) := by omega
      rw [e, unitsOfMag_normal _ _ (by omega)]
      rw [show 2 ^ 52 + (g - 2 ^ 52) = g by omega]
    · obtain rfl : g = 2 ^ 53 := by omega
      have e : 2 ^ 53 + k * 2 ^ 52 = (k + 1 + 1) * 2 ^ 52 + 0 := by omega
      rw [e, unitsOfMag_normal _ _ (by omega), pow_succ]
      omega

theorem unitsOfMag_lt_succ (m : Nat) : unitsOfMag m < unitsOfMag (m + 1) := by
  rcases lt_or_ge m (2 ^ 52) with h | h
  · have h2 : unitsOfMag (m + 1) = m + 1 := by
      have := unitsOfMag_scaled 0 (m + 1) (by omega) (.inl rfl)
      simpa using this
    rw [unitsOfMag_subnormal m h, h2]; omega
  · obtain ⟨k, g, rfl, h1, h2⟩ : ∃ k g, m = g + k * 2 ^ 52 ∧ 2 ^ 52 ≤ g ∧ g < 2 ^ 53 :=
      ⟨m / 2 ^ 52 - 1, 2 ^ 52 + m % 2 ^ 52, by omega, by omega, by omega⟩
    rw [unitsOfMag_scaled k g (by omega) (.inr h1),
      show g + k * 2 ^ 52 + 1 = (g + 1) + k * 2 ^ 52 by omega,
      unitsOfMag_scaled k (g + 1) (by omega) (.inr (by omega))]
    have : 0 < 2 ^ k := by positivity
    nlinarith

theorem unitsOfMag_strictMono : StrictMono unitsOfMag := strictMono_nat_of_lt_succ unitsOfMag_lt_succ

theorem unitsOfMag_le_iff {m n : Nat} : unitsOfMag m ≤ unitsOfMag n ↔ m ≤ n := unitsOfMag_strictMono.le_iff_le

theorem unitsOfMag_lt_iff {m n : Nat} : unitsOfMag m < unitsOfMag n ↔ m < n := unitsOfMag_strictMono.lt_iff_lt

theorem unitsOfMag_eq_zero {m : Nat} : unitsOfMag m = 0 ↔ m = 0 := by
  rw [← unitsOfMag_zero]; exact unitsOfMag_strictMono.injective.eq_iff

/-- On values that are not NaN the order of the keys is the order of the values in units. -/
theorem unitsOf_le_iff (a b : F) : unitsOf a ≤ unitsOf b ↔ orderKey a ≤ orderKey b := by
  have h0 : ∀ m, 0 < m → 0 < unitsOfMag m := fun m hm => by
    rw [← unitsOfMag_zero]; exact unitsOfMag_strictMono hm
  simp only [unitsOf, orderKey]
  have := @unitsOfMag_le_iff (magOf a) (magOf b)
  have := @unitsOfMag_le_iff (magOf b) (magOf a)
  have ha := h0 (magOf a)
  have hb := h0 (magOf b)
  have ea := @unitsOfMag_eq_zero (magOf a)
  have eb := @unitsOfMag_eq_zero (magOf b)
  split <;> split <;> omega

theorem unitsOf_lt_iff (a b : F) : unitsOf a < unitsOf b ↔ orderKey a < orderKey b := by
  rw [← not_le, ← not_le, unitsOf_le_iff]

/-! ### Rounding -/

/-- `j` is at most `n / d` rounded exactly when `n / d` is above `j - 1/2`, or on it and `j` is even. -/
theorem le_roundHalfEven_iff {n d j : Nat} (hd : 0 < d) (hj : 0 < j) :
    j ≤ roundHalfEven n d ↔ (2 * j - 1) * d < 2 * n ∨ ((2 * j - 1) * d = 2 * n ∧ j % 2 = 0) := by
  obtain ⟨i, rfl⟩ : ∃ i, j = i + 1 := ⟨j - 1, by omega⟩
  have hn := Nat.div_add_mod n d
  have hr := Nat.mod_lt n hd
  have e1 : (2 * (i + 1) - 1) * d = 2 * (i * d) + d := by
    rw [show 2 * (i + 1) - 1 = 2 * i + 1 by omega]; ring
  have e2 : 2 * n = 2 * (n / d * d) + 2 * (n % d) := by rw [mul_comm (n / d)]; omega
  rw [e1, e2, roundHalfEven]
  clear e1 e2 hn
  generalize n / d = q at *
  generalize n % d = r at *
  have hiq : i < q → i * d + d ≤ q * d := fun h => by nlinarith
  have hqi : q < i → q * d + d ≤ i * d := fun h => by nlinarith
  have hqe : q = i → q * d = i * d := fun h => by rw [h]
  generalize q * d = x at *
  generalize i * d = y at *
  split_ifs <;> omega

theorem roundHalfEven_mono {n₁ d₁ n₂ d₂ : Nat} (h₁ : 0 < d₁) (h₂ : 0 < d₂) (h : n₁ * d₂ ≤ n₂ * d₁) :
    roundHalfEven n₁ d₁ ≤ roundHalfEven n₂ d₂ := by
  rcases Nat.eq_zero_or_pos (roundHalfEven n₁ d₁) with h0 | h0
  · omega
  · have hj := (le_roundHalfEven_iff h₁ h0).1 le_rfl
    rw [le_roundHalfEven_iff h₂ h0]
    generalize roundHalfEven n₁ d₁ = j at *
    generalize 2 * j - 1 = c at *
    have hc : c * d₁ ≤ 2 * n₁ := by omega
    have h3 : c * d₂ * d₁ ≤ 2 * n₂ * d₁ := by nlinarith
    have h4 : c * d₂ ≤ 2 * n₂ := Nat.le_of_mul_le_mul_right h3 h₁
    rcases Nat.lt_or_ge (c * d₂) (2 * n₂) with h5 | h5
    · exact .inl h5
    · refine .inr ⟨by omega, ?_⟩
      rcases hj with hj | hj
      · have : c * d₂ = 2 * n₂ := by omega
        nlinarith
      · exact hj.2

theorem roundHalfEven_exact (q : Nat) {d : Nat} (hd : 0 < d) : roundHalfEven (q * d) d = q := by
  rw [roundHalfEven, if_pos (by simpa using hd), Nat.mul_div_cancel _ hd]

/-- The significand that `roundMag` rounds to has at most 53 bits, and is normal when it was scaled. -/
theorem significand_bounds {n d : Nat} (hd : 0 < d) :
    roundHalfEven n (d <<< scaleOf n d) ≤ 2 ^ 53 ∧
      (scaleOf n d = 0 ∨ 2 ^ 52 ≤ roundHalfEven n (d <<< scaleOf n d)) := by
  rw [Nat.shiftLeft_eq]
  have hk : 0 < d * 2 ^ scaleOf n d := by positivity
  have hlt : n / d < 2 ^ (scaleOf n d + 53) := by
    refine lt_of_lt_of_le (Nat.lt_log2_self (n := n / d)) (Nat.pow_le_pow_right (by norm_num) ?_)
    rw [scaleOf_eq]; omega
  have hup : n ≤ 2 ^ 53 * (d * 2 ^ scaleOf n d) := by
    have h1 : n < (n / d + 1) * d := by
      have := Nat.div_add_mod n d; have := Nat.mod_lt n hd; nlinarith
    have h2 : (n / d + 1) * d ≤ 2 ^ (scaleOf n d + 53) * d := Nat.mul_le_mul_right _ hlt
    rw [pow_add] at h2
    nlinarith
  refine ⟨?_, ?_⟩
  · have := roundHalfEven_mono (n₁ := n) (n₂ := 2 ^ 53 * (d * 2 ^ scaleOf n d)) hk hk
      (Nat.mul_le_mul_right _ hup)
    rwa [roundHalfEven_exact _ hk] at this
  · rcases Nat.eq_zero_or_pos (scaleOf n d) with h0 | h0
    · exact .inl h0
    · right
      have hq : n / d ≠ 0 := by
        intro h; simp [scaleOf_eq, h] at h0
      have hge : 2 ^ (scaleOf n d + 52) ≤ n / d := by
        refine le_trans (Nat.pow_le_pow_right (by norm_num) ?_) (Nat.log2_self_le hq)
        rw [scaleOf_eq] at *; omega
      have hlow : 2 ^ 52 * (d * 2 ^ scaleOf n d) ≤ n := by
        have h1 : n / d * d ≤ n := Nat.div_mul_le_self n d
        have h2 : 2 ^ (scaleOf n d + 52) * d ≤ n / d * d := Nat.mul_le_mul_right _ hge
        rw [pow_add] at h2
        nlinarith
      have := roundHalfEven_mono (n₁ := 2 ^ 52 * (d * 2 ^ scaleOf n d)) (n₂ := n) hk hk
        (Nat.mul_le_mul_right _ hlow)
      rwa [roundHalfEven_exact _ hk] at this

/-- What `roundHalfEven` answers: within half a unit, and even on a tie. -/
theorem roundHalfEven_near {n d : Nat} (hd : 0 < d) :
    2 * n ≤ (2 * roundHalfEven n d + 1) * d ∧ (2 * n = (2 * roundHalfEven n d + 1) * d → roundHalfEven n d % 2 = 0) ∧
    2 * roundHalfEven n d * d ≤ 2 * n + d ∧ (2 * roundHalfEven n d * d = 2 * n + d → roundHalfEven n d % 2 = 0) := by
  have hn := Nat.div_add_mod n d
  have hr := Nat.mod_lt n hd
  rw [mul_comm] at hn
  unfold roundHalfEven
  generalize n / d = q at *
  generalize n % d = r at *
  subst hn
  have e1 : (2 * q + 1) * d = 2 * (q * d) + d := by ring
  have e2 : 2 * q * d = 2 * (q * d) := by ring
  have e3 : (2 * (q + 1) + 1) * d = 2 * (q * d) + 3 * d := by ring
  have e4 : 2 * (q + 1) * d = 2 * (q * d) + 2 * d := by ring
  split
  · rw [e1, e2]; omega
  · split
    · rw [e3, e4]; omega
    · rcases Nat.mod_two_eq_zero_or_one q with h | h <;> simp only [h, Nat.add_zero]
      · rw [e1, e2]; exact ⟨by omega, fun _ => trivial, by omega, fun _ => trivial⟩
      · rw [e3, e4]; omega

/-- A scaled significand is normal before it is rounded, too. -/
theorem scaled_low {n d : Nat} (h0 : 0 < scaleOf n d) : 2 ^ 52 * (d * 2 ^ scaleOf n d) ≤ n := by
  have hq : n / d ≠ 0 := by
    intro h; simp [scaleOf_eq, h] at h0
  have hge : 2 ^ (scaleOf n d + 52) ≤ n / d := by
    refine le_trans (Nat.pow_le_pow_right (by norm_num) ?_) (Nat.log2_self_le hq)
    rw [scaleOf_eq] at *; omega
  have h1 : n / d * d ≤ n := Nat.div_mul_le_self n d
  have h2 : 2 ^ (scaleOf n d + 52) * d ≤ n / d * d := Nat.mul_le_mul_right _ hge
  rw [pow_add] at h2
  nlinarith

theorem scaleOf_mono {n₁ d₁ n₂ d₂ : Nat} (h₁ : 0 < d₁) (h₂ : 0 < d₂) (h : n₁ * d₂ ≤ n₂ * d₁) :
    scaleOf n₁ d₁ ≤ scaleOf n₂ d₂ := by
  have hq : n₁ / d₁ ≤ n₂ / d₂ := by
    rw [Nat.le_div_iff_mul_le h₂]
    have h3 : n₁ / d₁ * d₂ * d₁ ≤ n₂ * d₁ := by
      have := Nat.div_mul_le_self n₁ d₁; nlinarith
    exact Nat.le_of_mul_le_mul_right h3 h₁
  rw [scaleOf_eq, scaleOf_eq]
  rcases Nat.eq_zero_or_pos (n₁ / d₁) with h0 | h0
  · simp [h0]
  · have := (Nat.le_log2 (n := n₂ / d₂) (k := (n₁ / d₁).log2) (by omega)).2
      (le_trans (Nat.log2_self_le (by omega)) hq)
    omega

/-- Rounding is monotone: `n₁ / d₁ ≤ n₂ / d₂` gives the order of the rounded magnitudes. -/
theorem roundMag_mono {n₁ d₁ n₂ d₂ : Nat} (h₁ : 0 < d₁) (h₂ : 0 < d₂) (h : n₁ * d₂ ≤ n₂ * d₁) :
    roundMag n₁ d₁ ≤ roundMag n₂ d₂ := by
  have hs := scaleOf_mono h₁ h₂ h
  have b₁ := significand_bounds (n := n₁) h₁
  have b₂ := significand_bounds (n := n₂) h₂
  rw [roundMag_eq, roundMag_eq]
  refine min_le_min_right _ ?_
  rcases Nat.lt_or_ge (scaleOf n₁ d₁) (scaleOf n₂ d₂) with h3 | h3
  · generalize roundHalfEven n₁ (d₁ <<< scaleOf n₁ d₁) = g₁ at *
    generalize roundHalfEven n₂ (d₂ <<< scaleOf n₂ d₂) = g₂ at *
    omega
  · have hk : scaleOf n₁ d₁ = scaleOf n₂ d₂ := by omega
    rw [hk]
    refine Nat.add_le_add_right (roundHalfEven_mono ?_ ?_ ?_) _
    · rw [Nat.shiftLeft_eq]; positivity
    · rw [Nat.shiftLeft_eq]; positivity
    · simp only [Nat.shiftLeft_eq, ← mul_assoc]
      exact Nat.mul_le_mul_right _ h

theorem roundMag_le_infMag (n d : Nat) : roundMag n d ≤ infMag := min_le_right _ _

theorem roundMag_lt (n d : Nat) : roundMag n d < 2 ^ 63 := lt_of_le_of_lt (roundMag_le_infMag n d) infMag_lt

/-- A representable magnitude, as any fraction, rounds to itself. -/
theorem roundMag_exact {m : Nat} (hm : m ≤ infMag) {d : Nat} (hd : 0 < d) : roundMag (unitsOfMag m * d) d = m := by
  obtain ⟨k, g, rfl, hg, hn⟩ : ∃ k g, m = g + k * 2 ^ 52 ∧ g < 2 ^ 53 ∧ (k = 0 ∨ 2 ^ 52 ≤ g) :=
    ⟨m / 2 ^ 52 - 1, m - (m / 2 ^ 52 - 1) * 2 ^ 52, by omega, by omega, by omega⟩
  rw [unitsOfMag_scaled k g hg.le hn]
  have hq : g * 2 ^ k * d / d = g * 2 ^ k := Nat.mul_div_cancel _ hd
  have hs : scaleOf (g * 2 ^ k * d) d = k := by
    rw [scaleOf_eq, hq]
    rcases hn with rfl | hn
    · rcases Nat.eq_zero_or_pos g with rfl | h0
      · rfl
      · have : (g * 2 ^ 0).log2 < 53 := by rw [Nat.log2_lt (by omega)]; simpa using hg
        omega
    · have h1 : (g * 2 ^ k).log2 = 52 + k := by
        apply Nat.log2_eq_iff (by positivity) |>.2
        constructor
        · rw [pow_add]; exact Nat.mul_le_mul_right _ hn
        · rw [show 52 + k + 1 = 53 + k by omega, pow_add]
          exact Nat.mul_lt_mul_of_pos_right hg (by positivity)
      omega
  rw [roundMag_eq, hs, Nat.shiftLeft_eq, show g * 2 ^ k * d = g * (d * 2 ^ k) by ring,
    roundHalfEven_exact _ (by positivity)]
  exact min_eq_left hm

/-- A bound that is representable survives rounding. -/
theorem roundMag_le {n d m : Nat} (hm : m ≤ infMag) (hd : 0 < d) (h : n ≤ unitsOfMag m * d) : roundMag n d ≤ m := by
  have := roundMag_mono (n₁ := n) (n₂ := unitsOfMag m * d) hd hd (Nat.mul_le_mul_right _ h)
  rwa [roundMag_exact hm hd] at this

theorem le_roundMag {n d m : Nat} (hm : m ≤ infMag) (hd : 0 < d) (h : unitsOfMag m * d ≤ n) : m ≤ roundMag n d := by
  have := roundMag_mono (n₁ := unitsOfMag m * d) (n₂ := n) hd hd (Nat.mul_le_mul_right _ h)
  rwa [roundMag_exact hm hd] at this

@[simp] theorem roundMag_zero (d : Nat) (hd : 0 < d) : roundMag 0 d = 0 := by
  have := roundMag_exact (m := 0) (Nat.zero_le _) hd
  simpa using this

end Sys2Proof.Laws
end

