-- ==== Sys2Proof/Machine/SineWitness.lean ====
section
/-! DEFINITION. One function that has the properties R103 asks of `SIN`: the sine series, rounded down to 53 bits. It
is NOT the sine of the model. It shows that functions with those properties exist, which is all that the type of
`Config.sineFn` needs, and stands for binary64 only; the model's sine is that constant, of which nothing but the properties can be proved. -/

namespace Sys2Proof.Machine

/-- The first `n` terms of the sine series at `x`. -/
def sineSeries (x : Rat) : Nat → Rat
  | 0 => 0
  | n + 1 => sineSeries x n + (-1) ^ n * x ^ (2 * n + 1) / (Nat.factorial (2 * n + 1) : Rat)

/-- An integer number of `2^-53`, at most one in magnitude, as a binary64 word. -/
def ofSteps (k : Int) : F := pack (decide (k < 0)) (roundMag (k.natAbs <<< 1021) 1)

/-- `x` in steps of `2^-53`, rounded down and kept within one in magnitude. -/
def unitSteps (x : Rat) : Int := max (-(2 ^ 53)) (min (2 ^ 53) (x * 2 ^ 53).floor)

/-- A function with the properties of R103. -/
def sineWitness (x : F) : F := ofSteps (unitSteps (sineSeries (ratOf x) 24))

end Sys2Proof.Machine
end

