-- ==== Sys2Proof/Laws/SineWitness.lean ====
section
/-! SUPPORT. `sineWitness` has the properties R103 asks of `SIN`: in `[0, 7]` it is a number in `[-1, 1]` within
`2^-52` of the real sine. -/

namespace Sys2Proof.Laws

open Sys2Proof Sys2Proof.Machine

/-- Every number of at most 53 bits, scaled by a power of two, is a magnitude in units. -/
theorem exists_mag (j g : Nat) (hg : g ≤ 2 ^ 53) : ∃ m, unitsOfMag m = g * 2 ^ j ∧ m ≤ 2 ^ 53 + j * 2 ^ 52 := by
  induction j generalizing g with
  | zero =>
    refine ⟨g, ?_, by omega⟩
    simpa using unitsOfMag_scaled 0 g hg (.inl rfl)
  | succ j ih =>
    rcases Nat.lt_or_ge g (2 ^ 52) with h | h
    · obtain ⟨m, h1, h2⟩ := ih (2 * g) (by omega)
      refine ⟨m, by rw [h1, pow_succ]; ring, ?_⟩
      linarith
    · refine ⟨g + (j + 1) * 2 ^ 52, ?_, by omega⟩
      exact unitsOfMag_scaled (j + 1) g hg (.inr h)

/-- A number of at most 53 bits, scaled by a power of two, rounds to a magnitude that is equal to it. -/
theorem unitsOfMag_roundMag {j g : Nat} (hg : g ≤ 2 ^ 53) (hj : j ≤ 2045) (d : Nat) (hd : 0 < d) :
    unitsOfMag (roundMag (g * 2 ^ j * d) d) = g * 2 ^ j := by
  obtain ⟨m, h1, h2⟩ := exists_mag j g hg
  rw [← h1, roundMag_exact _ hd]
  rw [infMag_eq]; omega

theorem unitsOf_pack (s : Bool) {m : Nat} (hm : m < 2 ^ 63) :
    unitsOf (pack s m) = if s then -(unitsOfMag m : Int) else (unitsOfMag m : Int) := by
  rw [unitsOf, isNeg_pack s hm, magOf_pack s hm]

theorem unitsOf_ofSteps {k : Int} (hk : k.natAbs ≤ 2 ^ 53) : unitsOf (ofSteps k) = k * 2 ^ 1021 := by
  have h := unitsOfMag_roundMag (j := 1021) hk (by norm_num) 1 one_pos
  rw [mul_one] at h
  rw [ofSteps, unitsOf_pack _ (roundMag_lt _ _), Nat.shiftLeft_eq, h]
  generalize 1021 = e
  push_cast
  rcases lt_or_ge k 0 with h0 | h0
  · simp [h0, abs_of_neg h0]
  · simp [not_lt.2 h0, abs_of_nonneg h0]

theorem ratOf_ofSteps {k : Int} (hk : k.natAbs ≤ 2 ^ 53) : ratOf (ofSteps k) = (k : ℚ) / 2 ^ 53 := by
  have he : (1074 : Nat) = 1021 + 53 := rfl
  rw [ratOf, unitsOf_ofSteps hk, oneUnits_eq, he]
  generalize 1021 = e
  push_cast
  rw [pow_add, div_eq_div_iff (by positivity) (by positivity)]
  ring

theorem unitSteps_bounds (x : ℚ) : (unitSteps x).natAbs ≤ 2 ^ 53 := by
  unfold unitSteps; omega

/-- The odd terms of the exponential series on the imaginary axis are the sine series. -/
theorem sineSeries_eq_im (x : ℚ) (n : Nat) :
    ((sineSeries x n : ℚ) : ℝ) =
      (∑ m ∈ Finset.range (2 * n), (((x : ℝ) : ℂ) * Complex.I) ^ m / (m.factorial : ℂ)).im := by
  induction n with
  | zero => simp [sineSeries]
  | succ n ih =>
    rw [show 2 * (n + 1) = 2 * n + 1 + 1 by ring, Finset.sum_range_succ, Finset.sum_range_succ, Complex.add_im,
      Complex.add_im, ← ih, sineSeries]
    have h1 : ((((x : ℝ) : ℂ) * Complex.I) ^ (2 * n) / ((2 * n).factorial : ℂ)).im = 0 := by
      rw [mul_pow, pow_mul Complex.I, Complex.I_sq]
      rw [show ((x : ℝ) : ℂ) ^ (2 * n) * (-1) ^ n / ((2 * n).factorial : ℂ) =
        (((x : ℝ) ^ (2 * n) * (-1) ^ n / ((2 * n).factorial : ℝ) : ℝ) : ℂ) by push_cast; ring]
      exact Complex.ofReal_im _
    have h2 : ((((x : ℝ) : ℂ) * Complex.I) ^ (2 * n + 1) / ((2 * n + 1).factorial : ℂ)).im =
        (-1) ^ n * (x : ℝ) ^ (2 * n + 1) / ((2 * n + 1).factorial : ℝ) := by
      rw [mul_pow, pow_succ Complex.I, pow_mul Complex.I, Complex.I_sq]
      rw [show ((x : ℝ) : ℂ) ^ (2 * n + 1) * ((-1) ^ n * Complex.I) / ((2 * n + 1).factorial : ℂ) =
        (((-1) ^ n * (x : ℝ) ^ (2 * n + 1) / ((2 * n + 1).factorial : ℝ) : ℝ) : ℂ) * Complex.I by push_cast; ring]
      rw [Complex.im_ofReal_mul, Complex.I_im, mul_one]
    rw [h1, h2]
    push_cast
    ring

theorem sineSeries_close (x : ℚ) (h0 : 0 ≤ x) (h7 : x ≤ 7) :
    |((sineSeries x 24 : ℚ) : ℝ) - Real.sin x| ≤ 1 / 2 ^ 60 := by
  have hx : ‖((x : ℝ) : ℂ) * Complex.I‖ = (x : ℝ) := by
    rw [norm_mul, Complex.norm_I, mul_one, Complex.norm_real]
    exact abs_of_nonneg (by exact_mod_cast h0)
  have h7' : (x : ℝ) ≤ 7 := by exact_mod_cast h7
  have h0' : (0 : ℝ) ≤ x := by exact_mod_cast h0
  have hb := Complex.exp_bound' (x := ((x : ℝ) : ℂ) * Complex.I) (n := 48) (by
    rw [hx]; rw [div_le_iff₀ (by positivity)]; norm_num; linarith)
  rw [hx] at hb
  have him : (Complex.exp (((x : ℝ) : ℂ) * Complex.I)).im = Real.sin x := by
    rw [Complex.exp_ofReal_mul_I_im]
  rw [sineSeries_eq_im, ← him, abs_sub_comm, ← Complex.sub_im]
  refine le_trans (Complex.abs_im_le_norm _) (le_trans hb ?_)
  have hp : (x : ℝ) ^ 48 ≤ 7 ^ 48 := pow_le_pow_left₀ h0' h7' 48
  have hf : (0 : ℝ) < (Nat.factorial 48 : ℝ) := by positivity
  calc (x : ℝ) ^ 48 / (Nat.factorial 48 : ℝ) * 2 ≤ 7 ^ 48 / (Nat.factorial 48 : ℝ) * 2 := by gcongr
    _ ≤ 1 / 2 ^ 60 := by norm_num [Nat.factorial]

/-- `unitSteps` is within one step of the number it rounds, as far as that number stays near `[-1, 1]`. -/
theorem unitSteps_close (x : ℚ) (y : ℝ) (hy : |y| ≤ 1) (h : |(x : ℝ) - y| ≤ 1 / 2 ^ 60) :
    |((unitSteps x : ℚ) : ℝ) / 2 ^ 53 - y| ≤ 1 / 2 ^ 52 := by
  obtain ⟨f, hf⟩ : ∃ f : ℤ, f = (x * 2 ^ 53).floor := ⟨_, rfl⟩
  have h1 : (f : ℝ) ≤ (x : ℝ) * 2 ^ 53 := by
    have : (f : ℚ) ≤ x * 2 ^ 53 := by rw [hf]; exact Rat.floor_le _
    exact_mod_cast this
  have h2 : (x : ℝ) * 2 ^ 53 < f + 1 := by
    have : x * 2 ^ 53 < ((f + 1 : ℤ) : ℚ) := by rw [hf]; exact Rat.lt_floor_add_one _
    push_cast at this
    exact_mod_cast this
  rw [abs_le] at *
  unfold unitSteps
  rw [← hf]
  rcases le_total f (2 ^ 53) with a | a <;> rcases le_total (-(2 ^ 53)) f with b | b
  · rw [min_eq_right a, max_eq_right b]
    push_cast
    constructor <;> linarith
  · rw [min_eq_right a, max_eq_left b]
    have b' : (f : ℝ) ≤ -(2 ^ 53) := by exact_mod_cast b
    push_cast
    constructor <;> linarith
  · rw [min_eq_left a, max_eq_right (by norm_num)]
    have a' : (2 : ℝ) ^ 53 ≤ f := by exact_mod_cast a
    push_cast
    constructor <;> linarith
  · exfalso; omega

theorem isFinite_ofSteps {k : Int} (hk : k.natAbs ≤ 2 ^ 53) : isFinite (ofSteps k) = true := by
  obtain ⟨m, h1, h2⟩ := exists_mag 1021 k.natAbs hk
  have h3 : m < infMag := by rw [infMag_eq]; clear h1; omega
  rw [isFinite_iff, ofSteps, magOf_pack _ (roundMag_lt _ _), Nat.shiftLeft_eq, ← h1]
  have := roundMag_exact h3.le one_pos
  rw [mul_one] at this
  rw [this]
  exact h3

theorem ratOf_le_iff (a b : F) : ratOf a ≤ ratOf b ↔ orderKey a ≤ orderKey b := by
  have h : (0 : ℚ) < (oneUnits : ℚ) := by exact_mod_cast oneUnits_pos
  rw [← unitsOf_le_iff, ratOf, ratOf, div_le_div_iff_of_pos_right h, Int.cast_le]

theorem fge_iff_ratOf {a b : F} (ha : isFinite a = true) (hb : isFinite b = true) :
    fge a b = true ↔ ratOf b ≤ ratOf a := by
  rw [fge_iff, ratOf_le_iff]
  simp [isNaN_of_isFinite ha, isNaN_of_isFinite hb]

/-- The witness has the properties of R103 at every finite `x` in `[0, 7]`. -/
theorem sineWitness_close (x : F) (h0 : 0 ≤ ratOf x) (h7 : ratOf x ≤ 7) :
    isFinite (sineWitness x) = true ∧ -1 ≤ ratOf (sineWitness x) ∧ ratOf (sineWitness x) ≤ 1 ∧
      |((ratOf (sineWitness x) : ℚ) : ℝ) - Real.sin (ratOf x)| ≤ 1 / 2 ^ 52 := by
  have hb := unitSteps_bounds (sineSeries (ratOf x) 24)
  have hc := unitSteps_close (sineSeries (ratOf x) 24) (Real.sin (ratOf x)) (Real.abs_sin_le_one _)
    (sineSeries_close _ h0 h7)
  refine ⟨isFinite_ofSteps hb, ?_, ?_, ?_⟩
  · rw [sineWitness, ratOf_ofSteps hb, le_div_iff₀ (by positivity)]
    have : (-(2 ^ 53) : ℤ) ≤ unitSteps (sineSeries (ratOf x) 24) := by omega
    exact_mod_cast (by linarith : (-1 * 2 ^ 53 : ℤ) ≤ unitSteps (sineSeries (ratOf x) 24))
  · rw [sineWitness, ratOf_ofSteps hb, div_le_iff₀ (by positivity)]
    have : unitSteps (sineSeries (ratOf x) 24) ≤ 2 ^ 53 := by omega
    exact_mod_cast (by linarith : unitSteps (sineSeries (ratOf x) 24) ≤ 1 * 2 ^ 53)
  · rw [sineWitness, ratOf_ofSteps hb]
    push_cast at hc ⊢
    exact hc

end Sys2Proof.Laws
end

