-- ==== Sys2Proof/Machine/Sine.lean ====
section
/-! DEFINITION. The sine of FLG, a configuration function of which only the properties of R103 are known, and
`Config.params`, the parameters of R6 at the values the spec gives. This DEFINITION file imports a Laws file because an
opaque constant without a body needs a proof that its type has a member; `sineWitness` is used for nothing else. -/

namespace Sys2Proof

open Sys2Proof.Machine

/-- What R103 asks of the value `y` of `SIN` at `x`, for a given `TWO_PI`, `SIN_EPS` and number format: (P2) at `+0.0`
it is `+0.0`; (P3, P4) for finite `x` with `0 <= x <= TWO_PI` it is not a NaN, lies in `[-1.0, 1.0]` and is within
`SIN_EPS` of the real sine. -/
def SineAdmissible (twoPi : F) (eps : Rat) (x y : F) (fm : Format := Config.binary64) : Prop :=
  (x = posZero → y = posZero) ∧
  (isFinite x fm = true → fge x posZero fm = true → fge twoPi x fm = true →
    isNaN y fm = false ∧ fge y (minusOne fm) fm = true ∧ fge (one fm) y fm = true ∧
      |((ratOf y fm : Rat) : ℝ) - Real.sin ((ratOf x fm : Rat) : ℝ)| ≤ ((eps : Rat) : ℝ))

/-- The sine of an FLG with the parameters `pm` has the properties P2 to P4, in its own format and
for its own `TWO_PI` and `SIN_EPS`. -/
def SineOk (pm : Parameters) : Prop := ∀ x, SineAdmissible pm.twoPi pm.sinEps x (pm.sin x) pm.format

/-- `sineWitness` is admissible, so the type of `Config.sineFn` is inhabited. -/
theorem sineWitness_admissible (x : F) : SineAdmissible Config.twoPi Config.sinEps x (sineWitness x) := by
  refine ⟨fun h => by subst h; decide +kernel, fun hf h0 ht => ?_⟩
  have r0 : ratOf posZero = 0 := by simp [ratOf]
  have rt : ratOf Config.twoPi ≤ 7 := by decide +kernel
  have r1 : ratOf one = 1 := by decide +kernel
  have rm : ratOf minusOne = -1 := by decide +kernel
  have fp : isFinite posZero = true := by decide
  have ft : isFinite Config.twoPi = true := by decide
  have f1 : isFinite one = true := by decide
  have fm : isFinite minusOne = true := by decide
  rw [Laws.fge_iff_ratOf hf fp, r0] at h0
  rw [Laws.fge_iff_ratOf ft hf] at ht
  obtain ⟨c1, c2, c3, c4⟩ := Laws.sineWitness_close x h0 (le_trans ht rt)
  refine ⟨Laws.isNaN_of_isFinite c1, ?_, ?_, ?_⟩
  · rwa [Laws.fge_iff_ratOf c1 fm, rm]
  · rwa [Laws.fge_iff_ratOf f1 c1, r1]
  · rw [Config.sinEps]; push_cast; exact c4

/-- A function from `F` to `F` with the properties P1 to P4 of R103. The value after `:=` only shows that there is
one; it is not the sine of the model. -/
structure SineFn where
  /-- The function and its properties; that it is a function of the operand alone is P1. -/
  fn : {f : F → F // ∀ x, SineAdmissible Config.twoPi Config.sinEps x (f x)} := ⟨sineWitness, sineWitness_admissible⟩
  deriving Inhabited

/-- `SIN` (R6, R103, decision D2): some function with the properties P1 to P4, and nothing else is known of it. -/
opaque Config.sineFn : SineFn

/-- The parameters at the values the spec gives (R6; the wrap at equality is R102, 90_conflicts.md C1): the FLG whose
reset state and step the host runs. DEDUCED, unsafe for another FLG: log 9. -/
def Config.params : Parameters where
  format := Config.binary64
  sin := Config.sineFn.fn.val
  sinEps := Config.sinEps
  twoPi := Config.twoPi
  wrapsAtEqual := true
  capDivisor := Config.capDivisor
  capMax := Config.capMax
  idxW := Config.idxW
  nW := Config.nW
  srReset := Config.srReset
  blkReset := Config.blkReset
  depthReset := Config.depthReset
  modFreqReset := Config.modFreqReset
  dryReset := Config.dryReset
  wetReset := Config.wetReset

end Sys2Proof
end

