-- ==== Sys2Proof/Machine/State.lean ====
section
/-! DEFINITION. The state of FLG (10_state.md R20), as plain data, and the state after reset (R40, R190). -/

namespace Sys2Proof.Machine

/-- The lifecycle states of R35. Code 6 is reserved and never taken (U9), so it has no constructor. -/
inductive LState where
  | idle
  | configured
  | ready
  | running
  | stopped
  | closed
  | error
  deriving DecidableEq, Repr

/-- The causes of the configuration error (R171), the values of `ERR_CAUSE` (R36). Codes 6 to 255 are never written. -/
inductive ErrCause where
  /-- 0: no configuration error has occurred since reset. -/
  | none
  /-- 1 `DEPTH_NOT_NUMERIC` -/
  | depthNotNumeric
  /-- 2 `DEPTH_NOT_POSITIVE` -/
  | depthNotPositive
  /-- 3 `BAD_SAMPLE_RATE` -/
  | badSampleRate
  /-- 4 `BAD_MOD_FREQ` -/
  | badModFreq
  /-- 5 `BAD_GAIN` -/
  | badGain
  deriving DecidableEq, Repr

/-- The response status codes of R73; 0x04 to 0xFF are never returned. -/
inductive Status where
  /-- 0x00: the command was carried out. -/
  | ok
  /-- 0x01: CFG_COMMIT found the configuration invalid. -/
  | ecfg
  /-- 0x02: the command is not admitted in the current lifecycle state. -/
  | estate
  /-- 0x03: the transaction spells no command. -/
  | eill
  deriving DecidableEq, Repr

/-- One word of the sample space at its index (R51): an index names a whole 64-bit word. -/
abbrev Cell := Nat × F

/-- The delay buffer `DBUF` (R25, R51): indices strictly rising, no entry equal to what an unlisted index reads as,
which is the `+0.0` that OPEN writes (R146). DESIGN CHOICE, safe: log 10. -/
abbrev Memory := List Cell

/-- The six config registers, the document's EffectConfig (R26 to R31). -/
structure EffectConfig where
  /-- `SAMPLE_RATE`, Hz (R27). -/
  sampleRate : BitVec 64
  /-- `BLOCK_SIZE`, samples; no rule reads it (R28). -/
  blockSize : BitVec 64
  /-- `DEPTH`, seconds (R29). -/
  depth : F
  /-- `MOD_FREQ`, Hz (R30). -/
  modFreq : F
  /-- `DRY_GAIN` (R31). -/
  dryGain : F
  /-- `WET_GAIN` (R31). -/
  wetGain : F
  deriving DecidableEq, Repr

/-- The derived registers, written together by a successful CFG_COMMIT and by nothing else (R32, R144). -/
structure Derived where
  /-- `CAP`, the capacity of the delay buffer in samples: an unsigned integer of `IDX_W + 1` bits, 17 at the spec's
  width, which CFG_COMMIT reduces to that width. DESIGN CHOICE, safe: log 13. -/
  cap : Nat
  /-- `SR_F`, the sample rate as an `F` value. -/
  srF : F
  /-- `PHASE_INC`, the phase increment per sample. -/
  phaseInc : F
  deriving DecidableEq, Repr

/-- The engine state, which OPEN creates and CLOSE destroys as a whole (R12, R33). -/
structure Engine where
  /-- `DBUF` (R25). -/
  dbuf : Memory
  /-- `WCUR`, the write cursor (R23): an unsigned integer of `IDX_W` bits, 16 at the spec's width, which each sample
  reduces to that width. DESIGN CHOICE, safe: log 13. -/
  wcur : Nat
  /-- `PHASE`, the oscillator phase (R24). -/
  phase : F
  deriving DecidableEq, Repr

/-- What the host does to FLG between two steps (R13, R60, R190). -/
inductive HostEvent where
  /-- The host asserts the reset input. -/
  | reset
  /-- The host presents a transaction: a command word and its input data words (R70). -/
  | command (word : CmdWord) (data : List DataWord)
  deriving DecidableEq, Repr

/-- The response to one transaction: a status and the output data words (R70, R73). -/
structure Response where
  status : Status
  data : List DataWord
  deriving DecidableEq, Repr

/-- The complete state of FLG (R20), with what the host has issued and been answered, and the model's count of NaN
draws. `none` in `derived` and `engine` is the spec's `novalue` (R9, R33): no bit pattern (log 5). -/
structure State where
  /-- The config registers (R26). -/
  cfg : EffectConfig
  /-- The derived registers; `novalue` before a successful CFG_COMMIT and in ERROR (R32). -/
  derived : Option Derived
  /-- The engine state; `novalue` outside READY, RUNNING and STOPPED (R33). -/
  engine : Option Engine
  /-- `LSTATE` (R35). -/
  lstate : LState
  /-- `ERR_CAUSE` (R36). -/
  errCause : ErrCause
  /-- The host's events that FLG has not taken yet, oldest first. DESIGN CHOICE, safe: log 1. -/
  pending : List HostEvent
  /-- The responses FLG has delivered, oldest first. DESIGN CHOICE, safe: log 2. -/
  responses : List Response
  /-- How many NaN payloads have been drawn (R120). DESIGN CHOICE, safe: log 8. -/
  nanDraws : Nat
  deriving DecidableEq, Repr

/-- The faults of the model. None is reachable from reset: the spec asks for each by name and proves it away. -/
inductive Fault where
  /-- A `novalue` was read (R9, R33, U10): raised by STEP, BLOCK, OPEN and RD in a state whose lifecycle says that the
  register holds a value while it holds none. Safe. -/
  | noValue
  /-- `ffloor_int` was applied to a NaN or to a negative value (R125, U13, decision D18): raised by STEP and BLOCK when
  the delay product is one. Safe. -/
  | internalNan
  /-- An index outside `[0, CAP)` reached the delay buffer (R54): raised by STEP and BLOCK when the cursor breaks
  `WCUR < CAP`. Safe. -/
  | indexOutOfRange
  deriving DecidableEq, Repr

/-- The refusals of the model. -/
inductive Refusal where
  /-- The instruction has no meaning in the model yet: raised by an arm of `exec` only. Safe. -/
  | notModelled (mnemonic : String)
  deriving DecidableEq, Repr

/-- The config registers after reset (R40): the reset parameters of R6. -/
def resetConfig (pm : Parameters) : EffectConfig where
  sampleRate := pm.srReset
  blockSize := pm.blkReset
  depth := pm.depthReset
  modFreq := pm.modFreqReset
  dryGain := pm.dryReset
  wetGain := pm.wetReset

/-- The machine right after reset (R40, R190) of an FLG with the parameters `pm`, the host having issued nothing yet. -/
def resetWith (pm : Parameters) : State where
  cfg := resetConfig pm
  derived := none
  engine := none
  lstate := .idle
  errCause := .none
  pending := []
  responses := []
  nanDraws := 0

/-- The machine right after reset, at the spec's parameters (R6, R40, R190). -/
def State.reset : State := resetWith Config.params

end Sys2Proof.Machine
end

