-- ==== Sys2Proof/Machine/Ops.lean ====
section
/-! DEFINITION. The operations the meanings share: answering the host (R9 `respond`, `reject`), the configuration
error (R9 `raise`, R172), reset (R190), reads and writes of the delay buffer (R9 `MemRead`, `MemWrite`), the draw of a
NaN (R120), the sine (R103) and the port that hands FLG the host's next event (R60). -/

namespace Sys2Proof.Machine

/-- What a meaning answers. -/
abbrev Result := Host.Outcome State Fault Refusal

/-! ### The response side of the port -/

/-- `s` with one more response delivered (R70). -/
def State.answer (s : State) (st : Status) (data : List DataWord) : State :=
  { s with responses := s.responses ++ [⟨st, data⟩] }

/-- `respond(OK, d...)` (R9): end the command. -/
def respond (s : State) (data : List DataWord) : Result := .next (s.answer .ok data)

/-- `reject(st)` (R9, R174): a status, no data words, no state change. -/
def reject (s : State) (st : Status) : Result := .next (s.answer st [])

/-! ### The configuration error and reset -/

/-- `raise ConfigError(c)` (R172): record the cause, enter ERROR, answer ECFG; nothing else changes. -/
def raiseConfigError (s : State) (c : ErrCause) : Result :=
  .next (({ s with errCause := c, lstate := .error }).answer .ecfg [])

/-- Reset asserted between transactions (R190): every piece of the machine's state goes to its reset value. What the
host has still to issue and has been answered is the host's and stays, and so does the count of NaN draws (log 3).
There is no other way out of ERROR and CLOSED (R173, R179). -/
def resetMachine (s : State) : State :=
  { State.reset with pending := s.pending, responses := s.responses, nanDraws := s.nanDraws }

/-- The code of a lifecycle state (R35), 3 bits. -/
def lstateCode : LState → BitVec 3
  | .idle => 0
  | .configured => 1
  | .ready => 2
  | .running => 3
  | .stopped => 4
  | .closed => 5
  | .error => 7

/-- The code of an error cause (R171), 8 bits. -/
def causeCode : ErrCause → BitVec 8
  | .none => 0
  | .depthNotNumeric => 1
  | .depthNotPositive => 2
  | .badSampleRate => 3
  | .badModFreq => 4
  | .badGain => 5

/-- The code of a response status (R73), 8 bits. -/
def statusCode : Status → BitVec 8
  | .ok => 0
  | .ecfg => 1
  | .estate => 2
  | .eill => 3

/-! ### The delay buffer -/

/-- What an index that is not listed reads as: OPEN's `+0.0` (R146). -/
def blankWord : F := posZero

/-- The word at index `i` (R55). -/
def memRead : Memory → Nat → F
  | [], _ => blankWord
  | (j, w) :: rest, i => if i = j then w else memRead rest i

/-- The buffer with the word at index `i` replaced by `v` (R55), in canonical form. -/
def memWrite : Memory → Nat → F → Memory
  | [], i, v => if v = blankWord then [] else [(i, v)]
  | (j, w) :: rest, i, v =>
    if i < j then (if v = blankWord then (j, w) :: rest else (i, v) :: (j, w) :: rest)
    else if i = j then (if v = blankWord then rest else (i, v) :: rest)
    else (j, w) :: memWrite rest i v

/-- The canonical form, for the indices from `lo` up to `cap`: strictly rising, below `cap`, none equal to
`blankWord`. -/
def memWfFrom (cap : Nat) : Nat → Memory → Bool
  | _, [] => true
  | lo, (j, w) :: rest => decide (lo ≤ j) && decide (j < cap) && decide (w ≠ blankWord) && memWfFrom cap (j + 1) rest

/-- The canonical form of a delay buffer of capacity `cap` (log 10). -/
def memWf (cap : Nat) (m : Memory) : Bool := memWfFrom cap 0 m

/-- `MemRead(i, 1)` (R9): `i` must be in `[0, CAP)`. -/
def bufRead (cap : Nat) (m : Memory) (i : Nat) : Except Fault F :=
  if i < cap then .ok (memRead m i) else .error .indexOutOfRange

/-- `MemWrite(i, 1, v)` (R9): `i` must be in `[0, CAP)`. -/
def bufWrite (cap : Nat) (m : Memory) (i : Nat) (v : F) : Except Fault Memory :=
  if i < cap then .ok (memWrite m i v) else .error .indexOutOfRange

/-- The delay buffer that OPEN leaves: `+0.0` at every index (R146). -/
def blankBuffer : Memory := []

/-! ### Open values -/

/-- The `n`-th NaN that an operation of FLG produced: any sign, any payload of the format that is not zero (R120, U4). -/
def drawNaN (n : Nat) (fm : Format := Config.binary64) : F :=
  pack (Config.nanPayload n).1 (infMag fm + 1 + (Config.nanPayload n).2 % (2 ^ fm.fracW - 1)) fm

/-- The count of draws after a value was kept or answered: a NaN spends its draw. -/
def spendDraw (n : Nat) (v : F) (fm : Format := Config.binary64) : Nat := if isNaN v fm then n + 1 else n

/-- `SIN(x)` (R103). P2 is written out, so that the sine of `+0.0` can be evaluated; an admissible `SIN` has it too. -/
def sine (pm : Parameters) (x : F) : F := if x = posZero then posZero else pm.sin x

/-! ### The command side of the port -/

/-- What the host's next event asks for (R60, R86, R190). -/
inductive Fetched where
  /-- The host has issued nothing: between commands FLG keeps all state (R187). -/
  | nothing
  /-- The reset input is asserted. -/
  | reset (s : State)
  /-- The transaction spells no command (R80). -/
  | illegal (s : State) (e : DecodeError)
  /-- The transaction spells the command `i`. -/
  | command (s : State) (i : Instr)

/-- Take the host's next event and decode it, with the `N_W` of the parameters `pm`; the state in the answer has the
event taken. Decoding comes before any check of the lifecycle (R86). -/
def fetch (pm : Parameters) (s : State) : Fetched :=
  match s.pending with
  | [] => .nothing
  | .reset :: rest => .reset { s with pending := rest }
  | .command w d :: rest =>
    match decode w d pm.nW with
    | .ok i => .command { s with pending := rest } i
    | .error e => .illegal { s with pending := rest } e

/-- `s` with a transaction placed so that it is the next event FLG takes. -/
def placeTransaction (s : State) (w : CmdWord) (d : List DataWord) : State :=
  { s with pending := .command w d :: s.pending }

end Sys2Proof.Machine
end

