-- ==== Sys2Proof/Machine/Lfo.lean ====
section
/-! DEFINITION. The low-frequency oscillator, the internal operation LFO_NEXT (41_lfo.md). It has no command of its
own (R85); step 1 of STEP is its only caller. -/

namespace Sys2Proof.Machine

/-- `PHASE_INC = fdiv(fmul(TWO_PI, MOD_FREQ), SR_F)`: the product first, each rounded once (R32, R101). -/
def incrementOf (pm : Parameters) (nan modFreq srF : F) : F :=
  fdiv nan (fmul nan pm.twoPi modFreq pm.format) srF pm.format

/-- Whether a phase wraps (R102): at or above `TWO_PI`, equality included (90_conflicts.md C1). The comparison is an
open parameter (decision D16), so that an FLG with `wrapsAtEqual` false compares strictly. -/
def wraps (pm : Parameters) (p : F) : Bool :=
  if pm.wrapsAtEqual then fge p pm.twoPi pm.format else fgt p pm.twoPi pm.format

/-- The wrap: subtract `TWO_PI` once (R102). -/
def wrapPhase (pm : Parameters) (nan p : F) : F :=
  if wraps pm p then fsub nan p pm.twoPi pm.format else p

/-- The factor LFO_NEXT returns, from the phase before the advance (R100). -/
def lfoFactor (pm : Parameters) (nan phase : F) : F := fadd nan (one pm.format) (sine pm phase) pm.format

/-- The phase LFO_NEXT leaves: advance, then wrap (R100). -/
def lfoPhase (pm : Parameters) (nan phase inc : F) : F := wrapPhase pm nan (fadd nan phase inc pm.format)

end Sys2Proof.Machine
end

