-- ==== Sys2Proof/Machine/Engine.lean ====
section
/-! DEFINITION. The flanger mixing engine: the seven steps of one sample (42_engine_step.md), and STEP (R110). -/

namespace Sys2Proof.Machine

/-- Steps 2 and 3: `u = fmul(fmul(DEPTH, m), SR_F)`, two roundings (R112, R113). -/
def delayProduct (nan depth m srF : F) (fm : Format := Config.binary64) : F :=
  fmul nan (fmul nan depth m fm) srF fm

/-- Step 3: the floor of `u`, clamped to `CAP-1`; no interpolation (R110, R113, R114). A `u` of at least `CAP-1`,
`+Inf` included, is clamped before the floor is taken; a NaN or a negative `u`, which cannot arise, is the fault of
R125 and decision D18. DEDUCED, safe: log 11. -/
def delaySamples (cap : Nat) (u : F) (fm : Format := Config.binary64) : Except Fault Nat :=
  if fge u (ofUint (cap - 1) fm) fm then .ok (cap - 1)
  else
    match ffloorInt u fm with
    | some d => .ok d
    | none => .error .internalNan

/-- Step 4: `readIndex = (WCUR - d + CAP) mod CAP` (R115), the addition first so that no difference is negative. -/
def readIndex (cap wcur d : Nat) : Nat := (wcur + cap - d) % cap

/-- Step 5: `fadd(fmul(DRY_GAIN, s_in), fmul(WET_GAIN, tap))`, no fused multiply-add, no clamp (R116, R119). -/
def mix (nan : F) (c : EffectConfig) (x tap : F) (fm : Format := Config.binary64) : F :=
  fadd nan (fmul nan c.dryGain x fm) (fmul nan c.wetGain tap fm) fm

/-- Step 7: `(WCUR + 1) mod CAP`, in the `IDX_W` bits of the register (R23, R118). -/
def nextCursor (cap wcur : Nat) (idxW : Nat := Config.idxW) : Nat := (wcur + 1) % cap % 2 ^ idxW

/-- What one sample leaves: the output, the engine state and the count of NaN draws. -/
structure Sampled where
  out : F
  engine : Engine
  draws : Nat
  deriving DecidableEq, Repr

/-- Steps 5 to 7 for a given delay `d` and the phase that LFO_NEXT left: read the tap, mix, write the input back, and
advance the cursor, in this order (R58, R115 to R118). -/
def sampleTail (pm : Parameters) (c : EffectConfig) (cap draws : Nat) (e : Engine) (phase x : F) (d : Nat) :
    Except Fault Sampled :=
  match bufRead cap e.dbuf (readIndex cap e.wcur d) with
  | .error f => .error f
  | .ok tap =>
    match bufWrite cap e.dbuf e.wcur x with
    | .error f => .error f
    | .ok buf =>
      .ok ⟨mix (drawNaN draws pm.format) c x tap pm.format, ⟨buf, nextCursor cap e.wcur pm.idxW, phase⟩,
        spendDraw draws (mix (drawNaN draws pm.format) c x tap pm.format) pm.format⟩

/-- The seven steps of one sample on the engine state (R110 to R118). -/
def sampleEngine (pm : Parameters) (c : EffectConfig) (r : Derived) (draws : Nat) (e : Engine) (x : F) :
    Except Fault Sampled :=
  match delaySamples r.cap
      (delayProduct (drawNaN draws pm.format) c.depth (lfoFactor pm (drawNaN draws pm.format) e.phase) r.srF pm.format)
      pm.format with
  | .error f => .error f
  | .ok d =>
    sampleTail pm c r.cap (spendDraw draws (lfoPhase pm (drawNaN draws pm.format) e.phase r.phaseInc) pm.format) e
      (lfoPhase pm (drawNaN draws pm.format) e.phase r.phaseInc) x d

/-- One sample on the state: it writes the engine state and nothing else of the machine (R110). -/
def sampleOn (pm : Parameters) (s : State) (x : F) : Except Fault (F × State) :=
  match s.derived, s.engine with
  | some r, some e =>
    match sampleEngine pm s.cfg r s.nanDraws e x with
    | .error f => .error f
    | .ok q => .ok (q.out, { s with engine := some q.engine, nanDraws := q.draws })
  | _, _ => .error .noValue

/-- STEP of an FLG with the parameters `pm` (R110). -/
def stepWith (pm : Parameters) (x : F) (s : State) : Result :=
  if s.lstate = .running then
    match sampleOn pm s x with
    | .error f => .fault f
    | .ok (y, t) => respond t [y]
  else reject s .estate

/-- STEP (R110). -/
def execStep (x : F) (s : State) : Result := stepWith Config.params x s

end Sys2Proof.Machine
end

