-- ==== Sys2Proof/Machine/Block.lean ====
section
/-! DEFINITION. The block processing entry point: the seven steps of one sample repeated, and BLOCK (43_block.md). -/

namespace Sys2Proof.Machine

/-- The samples of a block in strictly increasing order, each taking effect before the next (R130, R59). -/
def samplesOn (pm : Parameters) : State → List F → Except Fault (List F × State)
  | s, [] => .ok ([], s)
  | s, x :: xs =>
    match sampleOn pm s x with
    | .error f => .error f
    | .ok (y, t) =>
      match samplesOn pm t xs with
      | .error f => .error f
      | .ok (ys, u) => .ok (y :: ys, u)

/-- BLOCK of an FLG with the parameters `pm` (R130). -/
def blockWith (pm : Parameters) (xs : List F) (s : State) : Result :=
  if s.lstate = .running then
    match samplesOn pm s xs with
    | .error f => .fault f
    | .ok (ys, t) => respond t ys
  else reject s .estate

/-- BLOCK (R130). -/
def execBlock (xs : List F) (s : State) : Result := blockWith Config.params xs s

end Sys2Proof.Machine
end

