-- ==== Sys2Proof/Machine/Operands.lean ====
section
/-! DEFINITION. The operand forms of FLG: a config register named by its field id (R75), a register named by its
register id (R37, R76), and in which lifecycle states each holds a value (R20, R33, R37). The other operands are the
data words themselves (R77). -/

namespace Sys2Proof.Machine

/-- The value of a config register (R75). -/
def getField (c : EffectConfig) : CfgField → DataWord
  | .sampleRate => c.sampleRate
  | .blockSize => c.blockSize
  | .depth => c.depth
  | .modFreq => c.modFreq
  | .dryGain => c.dryGain
  | .wetGain => c.wetGain

/-- The config registers with one replaced, all 64 bits (R75, R141). -/
def setField (c : EffectConfig) (f : CfgField) (v : DataWord) : EffectConfig :=
  match f with
  | .sampleRate => { c with sampleRate := v }
  | .blockSize => { c with blockSize := v }
  | .depth => { c with depth := v }
  | .modFreq => { c with modFreq := v }
  | .dryGain => { c with dryGain := v }
  | .wetGain => { c with wetGain := v }

/-- The lifecycle states in which the derived registers hold values (R20, R32, R37). -/
def holdsDerived : LState → Bool
  | .idle => false
  | .configured => true
  | .ready => true
  | .running => true
  | .stopped => true
  | .closed => true
  | .error => false

/-- The lifecycle states in which the engine state exists (R20, R33, R37). -/
def holdsEngine : LState → Bool
  | .idle => false
  | .configured => false
  | .ready => true
  | .running => true
  | .stopped => true
  | .closed => false
  | .error => false

/-- Whether RD of a register is admitted in a lifecycle state (R37, R150). -/
def regAdmitted (l : LState) : RegName → Bool
  | .cfg _ => true
  | .lstate => true
  | .errCause => true
  | .cap => holdsDerived l
  | .phaseInc => holdsDerived l
  | .wcur => holdsEngine l
  | .phase => holdsEngine l

/-- A value, or the fault that reading a `novalue` is (R9, R33). -/
def valueOf {α : Type} : Option α → Except Fault α
  | some v => .ok v
  | none => .error .noValue

/-- The 64-bit data word that RD answers for a register (R37). -/
def regValue (s : State) : RegName → Except Fault DataWord
  | .cfg f => .ok (getField s.cfg f)
  | .lstate => .ok ((lstateCode s.lstate).setWidth 64)
  | .errCause => .ok ((causeCode s.errCause).setWidth 64)
  | .cap => valueOf (s.derived.map fun d => BitVec.ofNat 64 d.cap)
  | .phaseInc => valueOf (s.derived.map fun d => d.phaseInc)
  | .wcur => valueOf (s.engine.map fun e => BitVec.ofNat 64 e.wcur)
  | .phase => valueOf (s.engine.map fun e => e.phase)

end Sys2Proof.Machine
end

