-- ==== Sys2Proof/Machine/Configure.lean ====
section
/-! DEFINITION. Configuration: CFG_WR, and CFG_COMMIT with its checks and derived values (44_lifecycle.md section 2). -/

namespace Sys2Proof.Machine

/-- CFG_WR (R141): any 64-bit word is stored; legality is judged by CFG_COMMIT. -/
def execCfgWr (f : CfgField) (v : DataWord) (s : State) : Result :=
  if s.lstate = .idle then respond { s with cfg := setField s.cfg f v } [] else reject s .estate

/-- Check 1 of R143: `DEPTH` is a real number (R145). -/
def depthIsNumeric (c : EffectConfig) (fm : Format := Config.binary64) : Bool := isFinite c.depth fm

/-- Check 2 of R143: `DEPTH > 0`. -/
def depthIsPositive (c : EffectConfig) (fm : Format := Config.binary64) : Bool := fgt c.depth posZero fm

/-- Check 3 of R143: `20 <= SAMPLE_RATE <= 20*CAP_MAX + 19`, so that `CAP` is in `[1, CAP_MAX]`. -/
def sampleRateIsLegal (pm : Parameters) (c : EffectConfig) : Bool :=
  decide (pm.capDivisor ≤ c.sampleRate.toNat) &&
    decide (c.sampleRate.toNat ≤ pm.capDivisor * pm.capMax + (pm.capDivisor - 1))

/-- Check 4 of R143: `MOD_FREQ` is finite and positive and its increment lies in `(0, TWO_PI)`. -/
def modFreqIsLegal (pm : Parameters) (nan : F) (c : EffectConfig) : Bool :=
  isFinite c.modFreq pm.format && fgt c.modFreq posZero pm.format &&
    (fgt (incrementOf pm nan c.modFreq (ofUint c.sampleRate.toNat pm.format)) posZero pm.format &&
      flt (incrementOf pm nan c.modFreq (ofUint c.sampleRate.toNat pm.format)) pm.twoPi pm.format)

/-- Check 5 of R143: both gains are finite. -/
def gainsAreFinite (c : EffectConfig) (fm : Format := Config.binary64) : Bool :=
  isFinite c.dryGain fm && isFinite c.wetGain fm

/-- The cause of the first failing check of R143, in the table's order, or `none` (R142, R171, R177). -/
def firstFailing (pm : Parameters) (nan : F) (c : EffectConfig) : ErrCause :=
  if !depthIsNumeric c pm.format then .depthNotNumeric
  else if !depthIsPositive c pm.format then .depthNotPositive
  else if !sampleRateIsLegal pm c then .badSampleRate
  else if !modFreqIsLegal pm nan c then .badModFreq
  else if !gainsAreFinite c pm.format then .badGain
  else .none

/-- The derived values (R32, R144). -/
def deriveFrom (pm : Parameters) (nan : F) (c : EffectConfig) : Derived where
  cap := c.sampleRate.toNat / pm.capDivisor % 2 ^ (pm.idxW + 1)
  srF := ofUint c.sampleRate.toNat pm.format
  phaseInc := incrementOf pm nan c.modFreq (ofUint c.sampleRate.toNat pm.format)

/-- CFG_COMMIT of an FLG with the parameters `pm` (R142). No NaN it computes is kept, so it spends no draw. -/
def commitWith (pm : Parameters) (s : State) : Result :=
  if s.lstate = .idle then
    if firstFailing pm (drawNaN s.nanDraws pm.format) s.cfg = .none then
      respond { s with derived := some (deriveFrom pm (drawNaN s.nanDraws pm.format) s.cfg), lstate := .configured } []
    else raiseConfigError s (firstFailing pm (drawNaN s.nanDraws pm.format) s.cfg)
  else reject s .estate

/-- CFG_COMMIT (R142). -/
def execCfgCommit (s : State) : Result := commitWith Config.params s

end Sys2Proof.Machine
end

