-- ==== Sys2Proof/Machine/Lifecycle.lean ====
section
/-! DEFINITION. The stream lifecycle: OPEN, START, STOP, CLOSE (44_lifecycle.md section 3). -/

namespace Sys2Proof.Machine

/-- The engine state that OPEN creates (R146): a silent buffer, the cursor at 0, the phase at `+0.0`. -/
def openedEngine : Engine where
  dbuf := blankBuffer
  wcur := 0
  phase := posZero

/-- OPEN (R146). It writes the words `0 .. CAP-1`, so it reads `CAP`. -/
def execOpen (s : State) : Result :=
  if s.lstate = .configured then
    match s.derived with
    | some _ => respond { s with engine := some openedEngine, lstate := .ready } []
    | none => .fault .noValue
  else reject s .estate

/-- START (R147): `LSTATE` only. -/
def execStart (s : State) : Result :=
  if s.lstate = .ready then respond { s with lstate := .running } [] else reject s .estate

/-- STOP (R148): `LSTATE` only. -/
def execStop (s : State) : Result :=
  if s.lstate = .running then respond { s with lstate := .stopped } [] else reject s .estate

/-- CLOSE (R149): the engine state is destroyed. -/
def execClose (s : State) : Result :=
  if s.lstate = .ready ∨ s.lstate = .stopped then respond { s with engine := none, lstate := .closed } []
  else reject s .estate

end Sys2Proof.Machine
end

