-- ==== Sys2Proof/Machine/Observe.lean ====
section
/-! DEFINITION. Observation: RD (44_lifecycle.md section 4). -/

namespace Sys2Proof.Machine

/-- RD (R150): the register's value, no state change. -/
def execRd (r : RegName) (s : State) : Result :=
  if regAdmitted s.lstate r then
    match regValue s r with
    | .error f => .fault f
    | .ok v => respond s [v]
  else reject s .estate

end Sys2Proof.Machine
end

