-- ==== Sys2Proof/Machine/Dispatch.lean ====
section
/-! DEFINITION. One arm per command of FLG (R74): which meaning it has. -/

namespace Sys2Proof.Machine

/-- The effect of a command on the state in which it is accepted (R60: one command is one atomic step). -/
def exec (i : Instr) (s : State) : Host.Outcome State Fault Refusal :=
  match i with
  | .cfgWr f v => Sys2Proof.Machine.execCfgWr f v s
  | .cfgCommit => Sys2Proof.Machine.execCfgCommit s
  | .openStream => Sys2Proof.Machine.execOpen s
  | .startStream => Sys2Proof.Machine.execStart s
  | .step x => Sys2Proof.Machine.execStep x s
  | .block xs => Sys2Proof.Machine.execBlock xs s
  | .stopStream => Sys2Proof.Machine.execStop s
  | .closeStream => Sys2Proof.Machine.execClose s
  | .rd r => Sys2Proof.Machine.execRd r s

end Sys2Proof.Machine
end

