-- ==== Sys2Proof/Machine/Step.lean ====
section
/-! DEFINITION. One step of FLG: take the host's next event and carry it out (R60, R86, R190). -/

namespace Sys2Proof.Machine

/-- One step. With no event FLG keeps all state (R187); reset goes to the reset values (R190); a transaction that
spells no command is answered EILL and changes nothing (R80, R174); a command is executed. -/
def step (s : State) : Host.Outcome State Fault Refusal :=
  match fetch Config.params s with
  | .nothing => .next s
  | .reset s' => .next (resetMachine s')
  | .illegal s' _ => reject s' .eill
  | .command s' i => exec i s'

/-- `s` with the instruction of the table's bits `w` placed as the transaction that `step` takes next (log 4). -/
def State.withFetchWord (s : State) (nbits w : Nat) : State :=
  placeTransaction s (tableWord nbits w) (tableData nbits w)

end Sys2Proof.Machine
end

