-- ==== Sys2Proof/Safety.lean ====
section
/-! DEFINITION. What counts as a sound state of FLG, and the tables of the spec that statements are written with: the
invariants of R41 and of R32, R33 and R172, the admission column of R140, the counts of R78. -/

namespace Sys2Proof.Machine

/-! ### The invariant -/

/-- (I-2) of R41: `PHASE` is finite and `0 <= PHASE < TWO_PI`. -/
def phaseOk (p : F) : Bool := isFinite p && fge p posZero && flt p Config.twoPi

/-- (I-1) and (I-2) of R41, and the canonical form of the buffer, for an engine state of capacity `cap`. -/
def engineOk (cap : Nat) (e : Engine) : Bool := memWf cap e.dbuf && decide (e.wcur < cap) && phaseOk e.phase

/-- The derived registers are the ones CFG_COMMIT derives from a configuration that passes its checks (R32, R143). No
NaN arises from such a configuration, so what stands for one does not matter. -/
def derivedOk (c : EffectConfig) (r : Derived) : Bool :=
  decide (firstFailing Config.params posZero c = .none) && decide (r = deriveFrom Config.params posZero c)

/-- The derived registers hold values exactly in the states of R37, and then sound ones. -/
def derivedInv (s : State) : Bool :=
  match s.derived with
  | none => !holdsDerived s.lstate
  | some r => holdsDerived s.lstate && derivedOk s.cfg r

/-- The engine state exists exactly in READY, RUNNING and STOPPED (R33), and is then sound for the capacity. -/
def engineInv (s : State) : Bool :=
  match s.engine with
  | none => !holdsEngine s.lstate
  | some e =>
    holdsEngine s.lstate &&
      match s.derived with
      | none => false
      | some r => engineOk r.cap e

/-- `ERR_CAUSE` is non-zero exactly in ERROR (R36, R172). -/
def errorInv (s : State) : Bool := decide (s.errCause = .none) == decide (s.lstate ≠ .error)

/-- A state as the rules leave it. -/
def sound (s : State) : Bool := derivedInv s && engineInv s && errorInv s

/-! ### Tables -/

/-- The states that admit a command: the columns of R140 that are not a dash, with R150's restriction of RD. -/
def admitted : Instr → LState → Bool
  | .cfgWr _ _, l => decide (l = .idle)
  | .cfgCommit, l => decide (l = .idle)
  | .openStream, l => decide (l = .configured)
  | .startStream, l => decide (l = .ready)
  | .step _, l => decide (l = .running)
  | .block _, l => decide (l = .running)
  | .stopStream, l => decide (l = .running)
  | .closeStream, l => decide (l = .ready) || decide (l = .stopped)
  | .rd r, l => regAdmitted l r

/-- `nout` of a command answered `OK` (R78). -/
def outCount : Instr → Nat
  | .cfgWr _ _ => 0
  | .cfgCommit => 0
  | .openStream => 0
  | .startStream => 0
  | .step _ => 1
  | .block xs => xs.length
  | .stopStream => 0
  | .closeStream => 0
  | .rd _ => 1

/-- The state a command leaves when it is admitted in `l` and answered `OK` (R140). -/
def lifecycleAfter (l : LState) : Instr → LState
  | .cfgWr _ _ => l
  | .cfgCommit => .configured
  | .openStream => .ready
  | .startStream => .running
  | .step _ => l
  | .block _ => l
  | .stopStream => .stopped
  | .closeStream => .closed
  | .rd _ => l

/-- What a CFG_COMMIT whose first failing check has cause `c` answers (R143, R172): the cause is recorded, the state is
ERROR, the response is ECFG without data, and nothing else changes. -/
def commitFailure (s : State) (c : ErrCause) : Result :=
  .next { s with errCause := c, lstate := .error, responses := s.responses ++ [⟨.ecfg, []⟩] }

/-! ### Reading a state -/

/-- `WCUR`, where the engine state exists. -/
def cursorOf (s : State) : Option Nat := s.engine.map fun e => e.wcur

/-- `PHASE`, where the engine state exists. -/
def phaseOf (s : State) : Option F := s.engine.map fun e => e.phase

/-- `CAP`, where the derived registers hold values. -/
def capOf (s : State) : Option Nat := s.derived.map fun r => r.cap

/-- The word of `DBUF` at an index, where the engine state exists. -/
def bufferWord (s : State) (i : Nat) : Option F := s.engine.map fun e => memRead e.dbuf i

/-- The word `k` places behind the cursor (R65); `k = CAP` is the word at the cursor, the oldest one. -/
def history (cap : Nat) (e : Engine) (k : Nat) : F := memRead e.dbuf ((e.wcur + cap - k) % cap)

/-- The delay in seconds of the next sample of an engine state: steps 1 and 2, the `t` of R110 (R111, R112). -/
def nextSeconds (c : EffectConfig) (draws : Nat) (e : Engine) : F :=
  fmul (drawNaN draws) c.depth (lfoFactor Config.params (drawNaN draws) e.phase)

/-- The delay of the next sample of an engine state: steps 1 to 3 (R111 to R114). -/
def nextDelay (c : EffectConfig) (r : Derived) (draws : Nat) (e : Engine) : Except Fault Nat :=
  delaySamples r.cap (delayProduct (drawNaN draws) c.depth (lfoFactor Config.params (drawNaN draws) e.phase) r.srF)

/-- The delay product of the next sample of an engine state: steps 1 to 3 before the floor (R111 to R113). -/
def nextProduct (c : EffectConfig) (r : Derived) (draws : Nat) (e : Engine) : F :=
  delayProduct (drawNaN draws) c.depth (lfoFactor Config.params (drawNaN draws) e.phase) r.srF

end Sys2Proof.Machine
end

