-- ==== Sys2Proof/Certificates/Slice0/Obligations.lean ====
section
/-! DEFINITION. The statements about FLG for the provers, from the numbered rules of spec/. A clause that rests on a
choice of the model names its log entry. Nowhere does a statement rest on the value of `nanDraws`, `responses` before
the command, or an opaque constant. -/

open Sys2Proof Sys2Proof.Machine

/-! ### Encoding -/

/-- R71, R74, R77, R78: decoding the transaction that spells a well-formed instruction gives it back, for every
instruction and every operand. -/
def Obligations.DecodeOfEncodeIsInstruction : Prop :=
  ∀ i : Instr, wellFormed i = true → decode (encode i).1 (encode i).2 = .ok i

/-- R71, R74, R78: a transaction that decodes is the one its instruction encodes to, so no two transactions spell the
same command, and the instruction is well formed. -/
def Obligations.EncodeOfDecodedIsTransaction : Prop :=
  ∀ (w : CmdWord) (d : List DataWord) (i : Instr), decode w d = .ok i → wellFormed i = true ∧ encode i = (w, d)

/-- R80: a transaction spells no command exactly in the cases (a) to (e), and then its step answers EILL without data,
in every state, and changes nothing. -/
def Obligations.ReservedTransactionsAnswerEill : Prop :=
  (∀ (w : CmdWord) (d : List DataWord),
    ((opcOf w = 0x00 ∨ 0x0A ≤ opcOf w) ∨
      ((opcOf w = 0x02 ∨ opcOf w = 0x03 ∨ opcOf w = 0x04 ∨ opcOf w = 0x05 ∨ opcOf w = 0x07 ∨ opcOf w = 0x08) ∧
        argOf w ≠ 0) ∨
      (opcOf w = 0x01 ∧ 5 < argOf w) ∨
      (opcOf w = 0x09 ∧ (argOf w = 6 ∨ argOf w = 7 ∨ 13 < argOf w)) ∨
      d.length ≠ (if opcOf w = 0x01 ∨ opcOf w = 0x05 then 1 else if opcOf w = 0x06 then argOf w else 0)) ↔
      ∃ e, decode w d = .error e) ∧
  (∀ (s : State) (w : CmdWord) (d : List DataWord) (rest : List HostEvent) (e : DecodeError),
    s.pending = .command w d :: rest → decode w d = .error e →
      step s = .next { s with pending := rest, responses := s.responses ++ [⟨.eill, []⟩] })

/-- 95_test_vectors.md V-ENC: words written out from the encoding of each command decode to it. -/
def Obligations.SpecWordsDecode : Prop :=
  decode 0x01000000 [0x000000000000BB80] = .ok (.cfgWr .sampleRate 48000) ∧
  decode 0x01000002 [0x3F80624DD2F1A9FC] = .ok (.cfgWr .depth 0x3F80624DD2F1A9FC) ∧
  decode 0x02000000 [] = .ok .cfgCommit ∧
  decode 0x03000000 [] = .ok .openStream ∧
  decode 0x04000000 [] = .ok .startStream ∧
  decode 0x05000000 [0x3FF0000000000000] = .ok (.step 0x3FF0000000000000) ∧
  decode 0x06000002 [0x3FF0000000000000, 0x0000000000000000] = .ok (.block [0x3FF0000000000000, 0]) ∧
  decode 0x07000000 [] = .ok .stopStream ∧
  decode 0x08000000 [] = .ok .closeStream ∧
  decode 0x09000002 [] = .ok (.rd (.cfg .depth)) ∧
  decode 0x0900000D [] = .ok (.rd .phase)

/-! ### One step -/

/-- R60, R70, R86: when the host's next event is a transaction that decodes to an instruction, the step takes the
event and is that instruction's effect. -/
def Obligations.StepRunsDecodedInstruction : Prop :=
  ∀ (s : State) (w : CmdWord) (d : List DataWord) (rest : List HostEvent) (i : Instr),
    s.pending = .command w d :: rest → decode w d = .ok i → step s = exec i { s with pending := rest }

/-- R187: with nothing issued FLG keeps all state. That such a step exists is the model's choice (log 1). -/
def Obligations.IdleStepKeepsState : Prop := ∀ s : State, s.pending = [] → step s = .next s

/-- R190: reset, in any state, puts the machine's state to its reset values. That the queue, the responses and the
count of draws stay is the model's choice (log 3). -/
def Obligations.ResetRestoresResetValues : Prop :=
  ∀ (s : State) (rest : List HostEvent), s.pending = .reset :: rest →
    ∃ t, step s = .next t ∧ t.lstate = .idle ∧ t.errCause = .none ∧ t.cfg = State.reset.cfg ∧ t.derived = none ∧
      t.engine = none ∧ t.pending = rest ∧ t.responses = s.responses

/-- R40: the values after reset. `BLOCK_SIZE` is the open parameter of log 6. -/
def Obligations.ResetStateHasSpecValues : Prop :=
  State.reset.lstate = .idle ∧ State.reset.errCause = .none ∧ State.reset.cfg.sampleRate = 144000 ∧
    State.reset.cfg.blockSize = Config.blkReset ∧ State.reset.cfg.depth = 0x3F80624DD2F1A9FC ∧
    State.reset.cfg.modFreq = 0x3FD0000000000000 ∧ State.reset.cfg.dryGain = 0x3FE6666666666666 ∧
    State.reset.cfg.wetGain = 0x3FE0000000000000 ∧ State.reset.derived = none ∧ State.reset.engine = none

/-- R60, R70: a step takes at most the oldest event of the queue; a transaction gets exactly one response and nothing
else gets one. That the queue and the responses stand in the state is the model's choice (log 1, log 2). -/
def Obligations.StepTakesOneEvent : Prop :=
  ∀ s t : State, step s = .next t →
    t.pending = s.pending.tail ∧
    ((∃ w d, s.pending.head? = some (.command w d)) → ∃ r, t.responses = s.responses ++ [r]) ∧
    ((∀ w d, s.pending.head? ≠ some (.command w d)) → t.responses = s.responses)

/-! ### Lifecycle -/

/-- R140: a command that is not admitted leaves everything but its ESTATE response; an admitted one that completes
leaves the table's state with status OK, or is a CFG_COMMIT that leaves ERROR with status ECFG; reset leaves IDLE; and
no step changes `LSTATE` but by reset or an admitted command. -/
def Obligations.LifecycleFollowsTable : Prop :=
  (∀ (i : Instr) (s t : State), exec i s = .next t →
    (admitted i s.lstate = true →
      (t.lstate = lifecycleAfter s.lstate i ∧ ∃ d, t.responses = s.responses ++ [⟨.ok, d⟩]) ∨
      (i = .cfgCommit ∧ t.lstate = .error ∧ t.responses = s.responses ++ [⟨.ecfg, []⟩])) ∧
    (admitted i s.lstate = false → t = s.answer .estate [])) ∧
  (∀ (s : State) (rest : List HostEvent), s.pending = .reset :: rest → ∃ t, step s = .next t ∧ t.lstate = .idle) ∧
  (∀ s t : State, step s = .next t → t.lstate ≠ s.lstate →
    (∃ rest, s.pending = .reset :: rest) ∨
    (∃ w d rest i, s.pending = .command w d :: rest ∧ decode w d = .ok i ∧ admitted i s.lstate = true))

/-- R174: both rejections answer a status and no data, and change nothing. -/
def Obligations.RejectionsChangeNothing : Prop :=
  (∀ (i : Instr) (s : State), admitted i s.lstate = false →
    exec i s = .next { s with responses := s.responses ++ [⟨.estate, []⟩] }) ∧
  (∀ (s : State) (w : CmdWord) (d : List DataWord) (rest : List HostEvent) (e : DecodeError),
    s.pending = .command w d :: rest → decode w d = .error e →
      step s = .next { s with pending := rest, responses := s.responses ++ [⟨.eill, []⟩] })

/-- R173: in ERROR every command but RD is rejected with ESTATE, and no step but reset leaves ERROR or changes a
config register. -/
def Obligations.ErrorIsLeftOnlyByReset : Prop :=
  ∀ s : State, s.lstate = .error →
    (∀ i : Instr, (∀ r, i ≠ .rd r) → exec i s = .next (s.answer .estate [])) ∧
    (∀ t : State, step s = .next t → (∃ rest, s.pending = .reset :: rest) ∨ (t.lstate = .error ∧ t.cfg = s.cfg))

/-- R152: outside IDLE no command changes a config or a derived register or leads back to IDLE; a failed CFG_COMMIT
keeps the config registers and leaves the derived ones without a value. -/
def Obligations.ConfigurationIsFrozen : Prop :=
  (∀ (i : Instr) (s t : State), s.lstate ≠ .idle → exec i s = .next t →
    t.cfg = s.cfg ∧ t.derived = s.derived ∧ t.lstate ≠ .idle) ∧
  (∀ s t : State, sound s = true → s.lstate = .idle → exec .cfgCommit s = .next t → t.lstate = .error →
    t.cfg = s.cfg ∧ t.derived = none)

/-- R21, R26, R32, R35, R36, R52: which commands may write each part of the state; every other command leaves it as it
was, every word of the buffer included. -/
def Obligations.OnlyNamedCommandsWrite : Prop :=
  ∀ (i : Instr) (s t : State), exec i s = .next t →
    t.pending = s.pending ∧
    ((∀ f v, i ≠ .cfgWr f v) → t.cfg = s.cfg) ∧
    (i ≠ .cfgCommit → t.derived = s.derived ∧ t.errCause = s.errCause) ∧
    ((∀ x, i ≠ .step x) → (∀ xs, i ≠ .block xs) → i ≠ .openStream → i ≠ .closeStream →
      t.engine = s.engine ∧ ∀ a, bufferWord t a = bufferWord s a) ∧
    (i ≠ .cfgCommit → i ≠ .openStream → i ≠ .startStream → i ≠ .stopStream → i ≠ .closeStream →
      t.lstate = s.lstate)

/-- R73, R77, R78: the status codes; a command appends one response; only an OK response has data, and then `nout`
words; ECFG comes from CFG_COMMIT only and EILL from no command. -/
def Obligations.ResponsesHaveTheirShape : Prop :=
  (statusCode .ok = 0x00 ∧ statusCode .ecfg = 0x01 ∧ statusCode .estate = 0x02 ∧ statusCode .eill = 0x03) ∧
  ∀ (i : Instr) (s t : State), exec i s = .next t →
    ∃ st d, t.responses = s.responses ++ [⟨st, d⟩] ∧ (st ≠ .ok → d = []) ∧ (st = .ok → d.length = outCount i) ∧
      (st = .ecfg → i = .cfgCommit) ∧ st ≠ .eill

/-! ### Configuration -/

/-- R141: CFG_WR is the word `0x01000000 | f` with one data word; in IDLE it stores any value into the field it names
and changes nothing else; elsewhere it is rejected. -/
def Obligations.CfgWrStoresField : Prop :=
  ∀ (f : CfgField) (v : DataWord) (s : State),
    encode (.cfgWr f v) = (0x01000000 ||| BitVec.ofNat 32 (idOfField f), [v]) ∧
    (s.lstate = .idle → ∃ c, exec (.cfgWr f v) s =
        .next { s with cfg := c, responses := s.responses ++ [⟨.ok, []⟩] } ∧
      getField c f = v ∧ ∀ g, g ≠ f → getField c g = getField s.cfg g) ∧
    (s.lstate ≠ .idle → exec (.cfgWr f v) s = .next (s.answer .estate []))

/-- R142, R144: in IDLE, with a configuration that meets the five checks, CFG_COMMIT writes `CAP = SAMPLE_RATE div
20`, `SR_F` exactly and `PHASE_INC` by product then quotient, enters CONFIGURED, and changes nothing else. -/
def Obligations.CommitDerivesFromLegalConfig : Prop :=
  ∀ (s : State) (inc : F), s.lstate = .idle →
    inc = fdiv (drawNaN s.nanDraws) (fmul (drawNaN s.nanDraws) 0x401921FB54442D18 s.cfg.modFreq)
      (ofUint s.cfg.sampleRate.toNat) →
    isFinite s.cfg.depth = true → fgt s.cfg.depth posZero = true →
    20 ≤ s.cfg.sampleRate.toNat → s.cfg.sampleRate.toNat ≤ 1310739 →
    isFinite s.cfg.modFreq = true → fgt s.cfg.modFreq posZero = true →
    fgt inc posZero = true → flt inc 0x401921FB54442D18 = true →
    isFinite s.cfg.dryGain = true → isFinite s.cfg.wetGain = true →
    ∃ r : Derived, exec .cfgCommit s =
        .next { s with derived := some r, lstate := .configured, responses := s.responses ++ [⟨.ok, []⟩] } ∧
      r.cap = s.cfg.sampleRate.toNat / 20 ∧ r.srF = ofUint s.cfg.sampleRate.toNat ∧
      unitsOf r.srF = (s.cfg.sampleRate.toNat : Int) * (oneUnits : Int) ∧ r.phaseInc = inc

/-- R143, R172: in IDLE, the first of the five checks that fails gives the cause, with the codes 1 to 5; CFG_COMMIT
then records it, enters ERROR, answers ECFG, and changes nothing else. -/
def Obligations.CommitReportsFirstFailure : Prop :=
  (causeCode .depthNotNumeric = 1 ∧ causeCode .depthNotPositive = 2 ∧ causeCode .badSampleRate = 3 ∧
    causeCode .badModFreq = 4 ∧ causeCode .badGain = 5) ∧
  ∀ (s : State) (inc : F), s.lstate = .idle →
    inc = fdiv (drawNaN s.nanDraws) (fmul (drawNaN s.nanDraws) 0x401921FB54442D18 s.cfg.modFreq)
      (ofUint s.cfg.sampleRate.toNat) →
    (isFinite s.cfg.depth = false → exec .cfgCommit s = commitFailure s .depthNotNumeric) ∧
    (isFinite s.cfg.depth = true → fgt s.cfg.depth posZero = false →
      exec .cfgCommit s = commitFailure s .depthNotPositive) ∧
    (isFinite s.cfg.depth = true → fgt s.cfg.depth posZero = true →
      (s.cfg.sampleRate.toNat < 20 ∨ 1310739 < s.cfg.sampleRate.toNat) →
      exec .cfgCommit s = commitFailure s .badSampleRate) ∧
    (isFinite s.cfg.depth = true → fgt s.cfg.depth posZero = true →
      20 ≤ s.cfg.sampleRate.toNat → s.cfg.sampleRate.toNat ≤ 1310739 →
      (isFinite s.cfg.modFreq = false ∨ fgt s.cfg.modFreq posZero = false ∨ fgt inc posZero = false ∨
        flt inc 0x401921FB54442D18 = false) → exec .cfgCommit s = commitFailure s .badModFreq) ∧
    (isFinite s.cfg.depth = true → fgt s.cfg.depth posZero = true →
      20 ≤ s.cfg.sampleRate.toNat → s.cfg.sampleRate.toNat ≤ 1310739 →
      isFinite s.cfg.modFreq = true → fgt s.cfg.modFreq posZero = true → fgt inc posZero = true →
      flt inc 0x401921FB54442D18 = true →
      (isFinite s.cfg.dryGain = false ∨ isFinite s.cfg.wetGain = false) →
      exec .cfgCommit s = commitFailure s .badGain)

/-- R28, R135: no command but a CFG_WR and an RD of `BLOCK_SIZE` reads or writes it: with another value in it the same
command does the same. -/
def Obligations.BlockSizeIsNeverRead : Prop :=
  ∀ (i : Instr) (s t : State) (v : BitVec 64), i ≠ .rd (.cfg .blockSize) → (∀ w, i ≠ .cfgWr .blockSize w) →
    exec i s = .next t →
      exec i { s with cfg := { s.cfg with blockSize := v } } = .next { t with cfg := { t.cfg with blockSize := v } }

/-! ### Stream lifecycle and observation -/

/-- R146: OPEN is the word `0x03000000`; in CONFIGURED it creates the engine state (every word `+0.0`, cursor 0,
phase `+0.0`), enters READY and changes nothing else; elsewhere it is rejected. -/
def Obligations.OpenCreatesSilentEngine : Prop :=
  encode .openStream = (0x03000000, []) ∧
  ∀ s : State,
    (s.lstate = .configured → s.derived ≠ none →
      ∃ e : Engine, exec .openStream s =
          .next { s with engine := some e, lstate := .ready, responses := s.responses ++ [⟨.ok, []⟩] } ∧
        (∀ i, memRead e.dbuf i = 0x0000000000000000) ∧ e.wcur = 0 ∧ e.phase = 0x0000000000000000) ∧
    (s.lstate ≠ .configured → exec .openStream s = .next (s.answer .estate []))

/-- R147: START is the word `0x04000000`; in READY it changes `LSTATE` only, to RUNNING, where STEP and BLOCK are
admitted; elsewhere it is rejected. -/
def Obligations.StartOnlyStarts : Prop :=
  encode .startStream = (0x04000000, []) ∧
  (∀ s : State,
    (s.lstate = .ready → exec .startStream s =
      .next { s with lstate := .running, responses := s.responses ++ [⟨.ok, []⟩] }) ∧
    (s.lstate ≠ .ready → exec .startStream s = .next (s.answer .estate []))) ∧
  (∀ x, admitted (.step x) .running = true) ∧ (∀ xs, admitted (.block xs) .running = true)

/-- R148: STOP is the word `0x07000000`; in RUNNING it changes `LSTATE` only, to STOPPED, where STEP and BLOCK are
rejected and the engine registers can be read; elsewhere it is rejected. -/
def Obligations.StopOnlyStops : Prop :=
  encode .stopStream = (0x07000000, []) ∧
  ∀ s : State,
    (s.lstate = .running → ∃ t, exec .stopStream s = .next t ∧
      t = { s with lstate := .stopped, responses := s.responses ++ [⟨.ok, []⟩] } ∧
      (∀ x, exec (.step x) t = .next (t.answer .estate [])) ∧
      (∀ xs, exec (.block xs) t = .next (t.answer .estate [])) ∧
      (∀ e, s.engine = some e → exec (.rd .wcur) t = .next (t.answer .ok [BitVec.ofNat 64 e.wcur]) ∧
        exec (.rd .phase) t = .next (t.answer .ok [e.phase]))) ∧
    (s.lstate ≠ .running → exec .stopStream s = .next (s.answer .estate []))

/-- R149: CLOSE is the word `0x08000000`; in READY and STOPPED it destroys the engine state, enters CLOSED and changes
nothing else; then the engine registers cannot be read, while the config and derived registers can; elsewhere it is
rejected. -/
def Obligations.CloseDestroysEngine : Prop :=
  encode .closeStream = (0x08000000, []) ∧
  ∀ s : State,
    ((s.lstate = .ready ∨ s.lstate = .stopped) → ∃ t, exec .closeStream s = .next t ∧
      t = { s with engine := none, lstate := .closed, responses := s.responses ++ [⟨.ok, []⟩] } ∧
      exec (.rd .wcur) t = .next (t.answer .estate []) ∧ exec (.rd .phase) t = .next (t.answer .estate []) ∧
      (∀ f, exec (.rd (.cfg f)) t = .next (t.answer .ok [getField s.cfg f])) ∧
      (∀ r, s.derived = some r → exec (.rd .cap) t = .next (t.answer .ok [BitVec.ofNat 64 r.cap]) ∧
        exec (.rd .phaseInc) t = .next (t.answer .ok [r.phaseInc]))) ∧
    (s.lstate ≠ .ready → s.lstate ≠ .stopped → exec .closeStream s = .next (s.answer .estate []))

/-- R150: RD is the word `0x09000000 | r`; RD of a register that holds a value answers it and changes nothing; RD of
one that holds none is rejected. -/
def Obligations.RdAnswersRegister : Prop :=
  (∀ r : RegName, encode (.rd r) = (0x09000000 ||| BitVec.ofNat 32 (idOfReg r), [])) ∧
  ∀ s : State, sound s = true →
    (∀ f, exec (.rd (.cfg f)) s = .next (s.answer .ok [getField s.cfg f])) ∧
    exec (.rd .lstate) s = .next (s.answer .ok [(lstateCode s.lstate).setWidth 64]) ∧
    exec (.rd .errCause) s = .next (s.answer .ok [(causeCode s.errCause).setWidth 64]) ∧
    ((s.lstate = .idle ∨ s.lstate = .error) →
      exec (.rd .cap) s = .next (s.answer .estate []) ∧ exec (.rd .phaseInc) s = .next (s.answer .estate [])) ∧
    (s.lstate ≠ .idle → s.lstate ≠ .error → ∃ r, s.derived = some r ∧
      exec (.rd .cap) s = .next (s.answer .ok [BitVec.ofNat 64 r.cap]) ∧
      exec (.rd .phaseInc) s = .next (s.answer .ok [r.phaseInc])) ∧
    ((s.lstate = .ready ∨ s.lstate = .running ∨ s.lstate = .stopped) → ∃ e, s.engine = some e ∧
      exec (.rd .wcur) s = .next (s.answer .ok [BitVec.ofNat 64 e.wcur]) ∧
      exec (.rd .phase) s = .next (s.answer .ok [e.phase])) ∧
    (s.lstate ≠ .ready → s.lstate ≠ .running → s.lstate ≠ .stopped →
      exec (.rd .wcur) s = .next (s.answer .estate []) ∧ exec (.rd .phase) s = .next (s.answer .estate []))

/-! ### One sample -/

/-- R110: in a sound RUNNING state STEP completes with the values of the seven steps: factor from the old phase,
two-rounding delay product, floor and clamp, read before write, mix, write-back, advance; nothing else changes but the
count of NaN draws (log 8). In any other state it is rejected. -/
def Obligations.StepComputesOneSample : Prop :=
  ∀ (s : State) (x : F),
    (sound s = true → s.lstate = .running →
      ∃ (r : Derived) (e : Engine) (m u p p' y : F) (d n : Nat),
        s.derived = some r ∧ s.engine = some e ∧
        m = fadd (drawNaN s.nanDraws) one (sine Config.params e.phase) ∧
        p = fadd (drawNaN s.nanDraws) e.phase r.phaseInc ∧
        p' = (if fge p 0x401921FB54442D18 then fsub (drawNaN s.nanDraws) p 0x401921FB54442D18 else p) ∧
        u = fmul (drawNaN s.nanDraws) (fmul (drawNaN s.nanDraws) s.cfg.depth m) r.srF ∧
        (fge u (ofUint (r.cap - 1)) = true → d = r.cap - 1) ∧
        (fge u (ofUint (r.cap - 1)) = false → ffloorInt u = some d) ∧
        y = fadd (drawNaN s.nanDraws) (fmul (drawNaN s.nanDraws) s.cfg.dryGain x)
          (fmul (drawNaN s.nanDraws) s.cfg.wetGain
            (memRead e.dbuf ((e.wcur + r.cap - d) % r.cap))) ∧
        exec (.step x) s = .next { s with
          engine := some ⟨memWrite e.dbuf e.wcur x,
            (e.wcur + 1) % r.cap, p'⟩
          nanDraws := n
          responses := s.responses ++ [⟨.ok, [y]⟩] }) ∧
    (s.lstate ≠ .running → exec (.step x) s = .next (s.answer .estate []))

/-- R117: the input is stored unchanged at the cursor the sample found, and every other word of the buffer stays. -/
def Obligations.InputIsWrittenBack : Prop :=
  ∀ (s t : State) (x : F), sound s = true → s.lstate = .running → exec (.step x) s = .next t →
    ∃ w, cursorOf s = some w ∧ bufferWord t w = some x ∧ ∀ i, i ≠ w → bufferWord t i = bufferWord s i

/-- R118: the cursor advances by one modulo the capacity, to 0 from `CAP-1`, and stays below it. -/
def Obligations.CursorAdvancesByOne : Prop :=
  ∀ (s t : State) (x : F), sound s = true → s.lstate = .running → exec (.step x) s = .next t →
    ∃ c w w', capOf s = some c ∧ cursorOf s = some w ∧ cursorOf t = some w' ∧ w' = (w + 1) % c ∧
      (w + 1 = c → w' = 0) ∧ (w + 1 ≠ c → w' = w + 1) ∧ w' < c

/-- R110 ("Writes: PHASE, one word of DBUF, WCUR. Nothing else."), from every state: the registers, and every word of
the buffer but the one at the cursor. -/
def Obligations.StepFrame : Prop :=
  ∀ (s t : State) (x : F), exec (.step x) s = .next t →
    t.cfg = s.cfg ∧ t.derived = s.derived ∧ t.lstate = s.lstate ∧ t.errCause = s.errCause ∧ t.pending = s.pending ∧
    (∃ r, t.responses = s.responses ++ [r]) ∧
    (∀ w, cursorOf s = some w → ∀ i, i ≠ w → bufferWord t i = bufferWord s i)

/-- R113, R114, R125: the delay of the next sample is defined, and is the smaller of the floor of the product and
`CAP-1`. -/
def Obligations.DelayIsClampedFloor : Prop :=
  ∀ (c : EffectConfig) (r : Derived) (n : Nat) (e : Engine), derivedOk c r = true → phaseOk e.phase = true →
    isNaN (nextProduct c r n e) = false ∧ isNeg (nextProduct c r n e) = false ∧
    ∃ d, nextDelay c r n e = .ok d ∧ d ≤ r.cap - 1 ∧
      (isFinite (nextProduct c r n e) = true →
        d = min (unitsOfMag (magOf (nextProduct c r n e)) / oneUnits) (r.cap - 1)) ∧
      (isInf (nextProduct c r n e) = true → d = r.cap - 1)

/-- R125, U13, decision D18: a NaN or a negative delay product is the named fault and gives no delay, at every
capacity the registers can hold. Of the two readings of the lower clamp in R114 this is the one the model takes (log
11); DelayIsClampedFloor says that no such product arises. -/
def Obligations.NanOrNegativeProductFaults : Prop :=
  ∀ (cap : Nat) (u : F), 1 ≤ cap → cap ≤ 2 ^ 17 → (isNaN u = true ∨ flt u 0x0000000000000000 = true) →
    delaySamples cap u = .error .internalNan

/-- R115: the read index is the integer remainder of the rule's formula, lies in `[0, CAP)`, and is the cursor exactly
for delay 0. -/
def Obligations.ReadIndexIsInRange : Prop :=
  ∀ cap w d : Nat, w < cap → d < cap →
    (readIndex cap w d : Int) = ((w : Int) - (d : Int) + (cap : Int)) % (cap : Int) ∧ readIndex cap w d < cap ∧
      (readIndex cap w d = w ↔ d = 0)

/-- R121, R58, R194: with delay 0 the tap is the word at the cursor as it was before the sample's own write. -/
def Obligations.ZeroDelayReadsOldestWord : Prop :=
  ∀ (s : State) (r : Derived) (e : Engine) (x : F), sound s = true → s.lstate = .running → s.derived = some r →
    s.engine = some e → nextDelay s.cfg r s.nanDraws e = .ok 0 →
    ∃ t, exec (.step x) s = .next t ∧
      t.responses = s.responses ++ [⟨.ok, [mix (drawNaN s.nanDraws) s.cfg x (memRead e.dbuf e.wcur)]⟩]

/-- R123, 90_conflicts.md C2: the first sample after OPEN has a silent tap: its output is the mix of the input and
`+0.0`. -/
def Obligations.FirstOutputHasSilentTap : Prop :=
  ∀ (s : State) (x : F), sound s = true → s.lstate = .running → s.engine = some openedEngine →
    ∃ t, exec (.step x) s = .next t ∧
      t.responses = s.responses ++ [⟨.ok, [mix (drawNaN s.nanDraws) s.cfg x posZero]⟩]

/-- R119: with the reset gains an input and a tap of one give 1.2, above unity: nothing clamps it. -/
def Obligations.OutputIsNotClamped : Prop :=
  ∀ nan : F, mix nan State.reset.cfg 0x3FF0000000000000 0x3FF0000000000000 = 0x3FF3333333333333

/-! ### The oscillator -/

/-- R103: what is known of the sine: P2, P3 and P4 (P1 is that it is a function). -/
def Obligations.SineHasItsProperties : Prop :=
  sine Config.params 0x0000000000000000 = 0x0000000000000000 ∧
  ∀ x : F, isFinite x = true → fge x 0x0000000000000000 = true → fge 0x401921FB54442D18 x = true →
    isNaN (sine Config.params x) = false ∧ fge (sine Config.params x) 0xBFF0000000000000 = true ∧
      fge 0x3FF0000000000000 (sine Config.params x) = true ∧
      |((ratOf (sine Config.params x) : Rat) : ℝ) - Real.sin ((ratOf x : Rat) : ℝ)| ≤ 1 / 2 ^ 52

/-- R104: on a sound phase the factor is finite, lies in `[+0.0, 2.0]`, and is not `-0.0`. -/
def Obligations.FactorLiesBetweenZeroAndTwo : Prop :=
  ∀ nan p : F, phaseOk p = true →
    isFinite (lfoFactor Config.params nan p) = true ∧ isNeg (lfoFactor Config.params nan p) = false ∧
      fge 0x4000000000000000 (lfoFactor Config.params nan p) = true

/-- R100: the factor of the first call after OPEN is 1.0 exactly. -/
def Obligations.FirstFactorIsOne : Prop :=
  ∀ nan : F, lfoFactor Config.params nan 0x0000000000000000 = 0x3FF0000000000000

/-- R106: the advance and the wrap keep `0 <= PHASE < TWO_PI` for every increment in `(0, TWO_PI)`. -/
def Obligations.PhaseStaysInRange : Prop :=
  ∀ nan p inc : F, isFinite p = true → fge p posZero = true → flt p 0x401921FB54442D18 = true →
    fgt inc posZero = true → flt inc 0x401921FB54442D18 = true →
    isFinite (lfoPhase Config.params nan p inc) = true ∧ fge (lfoPhase Config.params nan p inc) posZero = true ∧
      flt (lfoPhase Config.params nan p inc) 0x401921FB54442D18 = true

/-- R102: an advance that lands on `TWO_PI` exactly stores `+0.0`. -/
def Obligations.ExactLandingWrapsToZero : Prop :=
  ∀ nan : F, fadd nan 0x4012D97C7F3321D2 0x3FF921FB54442D18 = 0x401921FB54442D18 ∧
    lfoPhase Config.params nan 0x4012D97C7F3321D2 0x3FF921FB54442D18 = 0x0000000000000000

/-- R102: the wrap subtraction does not round: from `[TWO_PI, 2*TWO_PI]` the stored phase is exactly the excess. -/
def Obligations.WrapSubtractionIsExact : Prop :=
  ∀ nan p : F, fge p 0x401921FB54442D18 = true → fge 0x402921FB54442D18 p = true →
    unitsOf (wrapPhase Config.params nan p) = unitsOf p - unitsOf 0x401921FB54442D18

/-! ### Arithmetic -/

/-- R8: rounding picks a nearest representable magnitude, and of two equally near ones the even one; an infinity takes
the place of the first magnitude above the finite ones. -/
def Obligations.RoundingIsNearestEven : Prop :=
  ∀ n d m : Nat, 0 < d → m ≤ infMag →
    |(n : Int) - (unitsOfMag (roundMag n d) : Int) * d| ≤ |(n : Int) - (unitsOfMag m : Int) * d| ∧
    (|(n : Int) - (unitsOfMag (roundMag n d) : Int) * d| = |(n : Int) - (unitsOfMag m : Int) * d| →
      m ≠ roundMag n d → roundMag n d % 2 = 0)

/-- R8: `of_uint` is exact below `2^53`. -/
def Obligations.OfUintIsExact : Prop :=
  ∀ n : Nat, n < 2 ^ 53 → isFinite (ofUint n) = true ∧ unitsOf (ofUint n) = (n : Int) * (oneUnits : Int)

/-- R8: a sum, a product and a quotient of finite values are the exact result rounded once: the sum of the units, the
product of the magnitudes and their quotient. -/
def Obligations.FiniteResultsAreRoundedOnce : Prop :=
  ∀ nan a b : F, isFinite a = true → isFinite b = true →
    magOf (fadd nan a b) = roundMag (unitsOf a + unitsOf b).natAbs 1 ∧
    (unitsOf a + unitsOf b ≠ 0 → isNeg (fadd nan a b) = decide (unitsOf a + unitsOf b < 0)) ∧
    magOf (fmul nan a b) = roundMag (unitsOfMag (magOf a) * unitsOfMag (magOf b)) oneUnits ∧
    isNeg (fmul nan a b) = (isNeg a != isNeg b) ∧
    (magOf b ≠ 0 → magOf (fdiv nan a b) = roundMag (unitsOfMag (magOf a) * oneUnits) (unitsOfMag (magOf b)) ∧
      isNeg (fdiv nan a b) = (isNeg a != isNeg b))

/-! ### The buffer -/

/-- R55: a read gives the word last written at its index, bit for bit, and a write leaves every other word alone; the
canonical form (log 10) is kept. -/
def Obligations.ReadGivesWordLastWritten : Prop :=
  ∀ (cap : Nat) (m : Memory) (i : Nat) (v : F), memWf cap m = true → i < cap →
    memRead (memWrite m i v) i = v ∧ (∀ a, a ≠ i → memRead (memWrite m i v) a = memRead m a) ∧
      memWf cap (memWrite m i v) = true

/-- R65: after a block from OPEN's engine state the cursor has advanced by the number of samples modulo the capacity,
and the word `k` places behind it is the input of `k` samples ago, or OPEN's `+0.0`. -/
def Obligations.BufferHoldsLastInputs : Prop :=
  ∀ (s : State) (r : Derived) (xs : List F), sound s = true → s.lstate = .running → s.derived = some r →
    s.engine = some openedEngine →
    ∃ t e, exec (.block xs) s = .next t ∧ t.engine = some e ∧ e.wcur = xs.length % r.cap ∧
      ∀ k, 1 ≤ k → k ≤ r.cap →
        memRead e.dbuf ((e.wcur + r.cap - k) % r.cap) =
          if k ≤ xs.length then xs.getD (xs.length - k) 0 else 0x0000000000000000

/-- R66: the outputs of a block do not depend on the cursor OPEN gives. -/
def Obligations.OutputsIgnoreInitialCursor : Prop :=
  ∀ (s : State) (r : Derived) (w : Nat) (xs : List F), sound s = true → s.lstate = .running →
    s.derived = some r → s.engine = some openedEngine → w < r.cap →
    ∃ t u ys, exec (.block xs) s = .next t ∧
      exec (.block xs) { s with engine := some { openedEngine with wcur := w } } = .next u ∧
      t.responses = s.responses ++ [⟨.ok, ys⟩] ∧ u.responses = s.responses ++ [⟨.ok, ys⟩]

/-- R122: the tap of the sample after `n` samples since OPEN is the input of `d` samples ago, of `CAP` samples ago for
`d = 0`, or `+0.0` where there is none. -/
def Obligations.TapIsDelayedInput : Prop :=
  ∀ (s : State) (r : Derived) (xs : List F) (x : F), sound s = true → s.lstate = .running → s.derived = some r →
    s.engine = some openedEngine →
    ∃ t e d u, exec (.block xs) s = .next t ∧ t.engine = some e ∧ nextDelay t.cfg r t.nanDraws e = .ok d ∧
      exec (.step x) t = .next u ∧
      u.responses = t.responses ++ [⟨.ok, [mix (drawNaN t.nanDraws) s.cfg x
        (if 1 ≤ d ∧ d ≤ xs.length then xs.getD (xs.length - d) 0
          else if d = 0 ∧ r.cap ≤ xs.length then xs.getD (xs.length - r.cap) 0
          else 0x0000000000000000)]⟩]

/-! ### Blocks -/

/-- R130: in RUNNING a block is its samples in order, each a whole STEP before the next; in a sound state it completes
with one output a sample; in any other state it is rejected. -/
def Obligations.BlockIsItsSamplesInOrder : Prop :=
  ∀ s : State,
    (s.lstate = .running →
      exec (.block []) s = .next (s.answer .ok []) ∧
      (∀ (x y : F) (xs ys : List F) (u v : State), u.responses = s.responses → v.responses = s.responses →
        exec (.step x) s = .next (u.answer .ok [y]) → exec (.block xs) u = .next (v.answer .ok ys) →
          exec (.block (x :: xs)) s = .next (v.answer .ok (y :: ys))) ∧
      (sound s = true → ∀ xs : List F, ∃ (ys : List F) (t : State), exec (.block xs) s = .next t ∧
        ys.length = xs.length ∧ t.responses = s.responses ++ [⟨.ok, ys⟩])) ∧
    (s.lstate ≠ .running → ∀ xs, exec (.block xs) s = .next (s.answer .estate []))

/-- R132: the empty block, the word `0x06000000`, answers OK without data in RUNNING and ESTATE elsewhere, and
changes nothing. -/
def Obligations.EmptyBlockChangesNothing : Prop :=
  encode (.block []) = (0x06000000, []) ∧
  ∀ s : State,
    exec (.block []) s =
      .next { s with responses := s.responses ++ [⟨if s.lstate = .running then .ok else .estate, []⟩] }

/-- R134: STEP is BLOCK of one sample, from every state. -/
def Obligations.StepIsBlockOfOne : Prop := ∀ (x : F) (s : State), exec (.block [x]) s = exec (.step x) s

/-- R134: two blocks one after the other give the outputs and the end state of the joined block. -/
def Obligations.BlocksCompose : Prop :=
  ∀ (s t u : State) (xs ys os ps : List F),
    exec (.block xs) s = .next t → t.responses = s.responses ++ [⟨.ok, os⟩] →
    exec (.block ys) t = .next u → u.responses = t.responses ++ [⟨.ok, ps⟩] →
      exec (.block (xs ++ ys)) s = .next { u with responses := s.responses ++ [⟨.ok, os ++ ps⟩] }

/-- R130, R52: a block changes the engine state and nothing else of the machine, and of the buffer only the words its
samples store to: `N` words from the cursor on, modulo the capacity. -/
def Obligations.BlockFrame : Prop :=
  ∀ (s t : State) (xs : List F) (r : Derived) (e : Engine), sound s = true → s.lstate = .running →
    s.derived = some r → s.engine = some e → exec (.block xs) s = .next t →
    t.cfg = s.cfg ∧ t.derived = s.derived ∧ t.lstate = s.lstate ∧ t.errCause = s.errCause ∧ t.pending = s.pending ∧
    ∀ a, (∀ j, j < xs.length → a ≠ (e.wcur + j) % r.cap) → bufferWord t a = bufferWord s a

/-- R120, R125, R133: the sample values never reach the delay path. After two blocks of the same length, whatever
their samples, the cursor, the phase and the `t`, `u` and `d` of the next sample (R110) are the same; and that sample,
whatever its own value, is mixed with the word at the same read index `ri` of the buffer that each block left. Which NaN
stands for one in the output is the model's draw (log 8). -/
def Obligations.DelayPathIgnoresSamples : Prop :=
  ∀ (s t u : State) (xs ys : List F), sound s = true → s.lstate = .running → xs.length = ys.length →
    exec (.block xs) s = .next t → exec (.block ys) s = .next u →
    ∃ (r : Derived) (e e' : Engine) (d : Nat),
      s.derived = some r ∧ t.engine = some e ∧ u.engine = some e' ∧ e.wcur = e'.wcur ∧ e.phase = e'.phase ∧
      nextSeconds s.cfg t.nanDraws e = nextSeconds s.cfg u.nanDraws e' ∧
      nextProduct s.cfg r t.nanDraws e = nextProduct s.cfg r u.nanDraws e' ∧
      nextDelay s.cfg r t.nanDraws e = .ok d ∧ nextDelay s.cfg r u.nanDraws e' = .ok d ∧
      ∀ x : F, ∃ t' u' : State, exec (.step x) t = .next t' ∧ exec (.step x) u = .next u' ∧
        t'.responses = t.responses ++
          [⟨.ok, [mix (drawNaN t.nanDraws) s.cfg x (memRead e.dbuf (readIndex r.cap e.wcur d))]⟩] ∧
        u'.responses = u.responses ++
          [⟨.ok, [mix (drawNaN u.nanDraws) s.cfg x (memRead e'.dbuf (readIndex r.cap e.wcur d))]⟩] ∧
        cursorOf t' = cursorOf u' ∧ phaseOf t' = phaseOf u'

/-! ### Every configuration -/

/-- R6, R40, decision D13: of an FLG with any parameters, reset leaves the config registers at the parameters, and the
rest as for the spec's parameters. -/
def Obligations.ResetTakesItsParameters : Prop :=
  ∀ pm : Parameters,
    (resetWith pm).cfg.sampleRate = pm.srReset ∧ (resetWith pm).cfg.blockSize = pm.blkReset ∧
    (resetWith pm).cfg.depth = pm.depthReset ∧ (resetWith pm).cfg.modFreq = pm.modFreqReset ∧
    (resetWith pm).cfg.dryGain = pm.dryReset ∧ (resetWith pm).cfg.wetGain = pm.wetReset ∧
    resetWith pm = { State.reset with cfg := (resetWith pm).cfg } ∧ State.reset = resetWith Config.params

/-- R6, R144, R118, R41 (I-1, I-4), decision D10: of every FLG with `IDX_W` wide enough for its `CAP_MAX`, whatever
`CAP_MAX` is, a configuration that passes the checks gives a capacity in `[1, CAP_MAX]` that its register holds exactly,
and the cursor advances modulo that capacity without losing a bit. -/
def Obligations.CapacityFitsEveryConfiguration : Prop :=
  ∀ (pm : Parameters) (nan : F) (c : EffectConfig), 1 ≤ pm.capDivisor → pm.capMax ≤ 2 ^ pm.idxW →
    firstFailing pm nan c = .none →
    (deriveFrom pm nan c).cap = c.sampleRate.toNat / pm.capDivisor ∧
    1 ≤ (deriveFrom pm nan c).cap ∧ (deriveFrom pm nan c).cap ≤ pm.capMax ∧
    ∀ w : Nat, w < (deriveFrom pm nan c).cap →
      nextCursor (deriveFrom pm nan c).cap w pm.idxW = (w + 1) % (deriveFrom pm nan c).cap

/-- R6, R71, R77, decision D5: of every FLG whose `ARG` has `N_W` bits, at least four, and whose `OPC` has at least four,
decoding the transaction that spells an instruction that is well formed for that width gives it back. That `OPC` is what
lies above an `ARG` of another width is the model's reading (log 9). -/
def Obligations.DecodeOfEncodeAtEveryWidth : Prop :=
  ∀ (nW : Nat) (i : Instr), 4 ≤ nW → nW ≤ 28 → wellFormed i nW = true →
    decode (encode i nW).1 (encode i nW).2 nW = .ok i

/-! ### Sound states -/

/-- R40, R41: the state after reset is sound. -/
def Obligations.ResetStateIsSound : Prop := sound State.reset = true

/-- R41, R106, R118, R143, R152, R33: every step from a sound state leads to a sound state. -/
def Obligations.EveryStepKeepsSoundness : Prop := ∀ s t : State, sound s = true → step s = .next t → sound t = true

/-- R175, R176, R205: from a sound state every step completes, whatever the host has issued: no fault, no refusal. -/
def Obligations.SoundStatesAlwaysStep : Prop := ∀ s : State, sound s = true → ∃ t, step s = .next t

/-- R41 (I-1, I-2, I-4, I-5, I-6), R32, R33, R36: what a sound state is in the terms of the spec. -/
def Obligations.SoundStatesMeetSpecInvariants : Prop :=
  ∀ s : State, sound s = true →
    ((∃ e, s.engine = some e) ↔ s.lstate = .ready ∨ s.lstate = .running ∨ s.lstate = .stopped) ∧
    ((∃ r, s.derived = some r) ↔ s.lstate ≠ .idle ∧ s.lstate ≠ .error) ∧
    (s.errCause = .none ↔ s.lstate ≠ .error) ∧
    (∀ r, s.derived = some r →
      1 ≤ r.cap ∧ r.cap ≤ 65536 ∧ r.cap = s.cfg.sampleRate.toNat / 20 ∧
      r.srF = ofUint s.cfg.sampleRate.toNat ∧
      fgt r.phaseInc posZero = true ∧ flt r.phaseInc 0x401921FB54442D18 = true ∧
      isFinite s.cfg.depth = true ∧ fgt s.cfg.depth posZero = true ∧
      isFinite s.cfg.dryGain = true ∧ isFinite s.cfg.wetGain = true) ∧
    (∀ r e, s.derived = some r → s.engine = some e →
      e.wcur < r.cap ∧ isFinite e.phase = true ∧ fge e.phase posZero = true ∧
      flt e.phase 0x401921FB54442D18 = true ∧ ∀ i, r.cap ≤ i → memRead e.dbuf i = posZero)
end

