-- ==== Sys2Proof/Laws/Arith.lean ====
section
/-! SUPPORT. What the binary64 operations answer on the operands the rules of FLG give them: sums and products of
finite values, `of_uint`, the floor, and the parameters. -/

namespace Sys2Proof.Laws

open Sys2Proof Sys2Proof.Machine

/-! ### Keys and units -/

theorem orderKey_nonneg_units {a : F} (h : 0 ≤ orderKey a) : unitsOf a = unitsOfMag (orderKey a).toNat := by
  unfold orderKey unitsOf at *
  split at h
  · next hs =>
    have : magOf a = 0 := by omega
    simp [hs, this]
  · next hs => simp [hs]

theorem magOf_of_orderKey_nonneg {a : F} (h : 0 ≤ orderKey a) : (magOf a : Int) = orderKey a := by
  unfold orderKey at *
  split at h <;> rename_i hs <;> simp only [hs] <;> simp at * <;> omega

theorem isFinite_of_orderKey {a : F} (h0 : 0 ≤ orderKey a) (h1 : orderKey a < infMag) : isFinite a = true := by
  rw [isFinite_iff]
  have := magOf_of_orderKey_nonneg h0
  omega

theorem unitsOf_nonneg {a : F} (h : 0 ≤ orderKey a) : 0 ≤ unitsOf a := by
  rw [orderKey_nonneg_units h]; exact Int.natCast_nonneg _

/-- One more in the exponent doubles a normal magnitude. -/
theorem unitsOfMag_double {m : Nat} (h : 2 ^ 52 ≤ m) : unitsOfMag (m + 2 ^ 52) = 2 * unitsOfMag m := by
  obtain ⟨e, f, rfl, hf⟩ : ∃ e f, m = (e + 1) * 2 ^ 52 + f ∧ f < 2 ^ 52 :=
    ⟨m / 2 ^ 52 - 1, m % 2 ^ 52, by omega, by omega⟩
  rw [show (e + 1) * 2 ^ 52 + f + 2 ^ 52 = (e + 1 + 1) * 2 ^ 52 + f by ring, unitsOfMag_normal _ _ hf,
    unitsOfMag_normal _ _ hf, pow_succ]
  ring

/-! ### Sums -/

theorem fadd_finite {nan a b : F} (ha : isFinite a = true) (hb : isFinite b = true) :
    fadd nan a b = faddFinite a b := by
  simp [fadd, isNaN_of_isFinite ha, isNaN_of_isFinite hb, isInf_of_isFinite ha, isInf_of_isFinite hb]

theorem magOf_faddFinite (a b : F) : magOf (faddFinite a b) = roundMag (unitsOf a + unitsOf b).natAbs 1 := by
  unfold faddFinite
  split
  · next h => rw [magOf_pack _ (by norm_num), h]; exact (roundMag_zero 1 one_pos).symm
  · rw [magOf_pack _ (roundMag_lt _ _)]

theorem isNaN_faddFinite (a b : F) : isNaN (faddFinite a b) = false := by
  have := roundMag_le_infMag (unitsOf a + unitsOf b).natAbs 1
  simp [isNaN, magOf_faddFinite, this]

theorem orderKey_faddFinite {a b : F} (h : 0 ≤ unitsOf a + unitsOf b) :
    orderKey (faddFinite a b) = roundMag (unitsOf a + unitsOf b).natAbs 1 := by
  have hm := magOf_faddFinite a b
  unfold orderKey
  rw [hm]
  split
  · next hs =>
    have h0 : unitsOf a + unitsOf b = 0 := by
      by_contra hne
      have hlt : ¬ (unitsOf a + unitsOf b < 0) := by omega
      unfold faddFinite at hs
      rw [if_neg hne, isNeg_pack _ (roundMag_lt _ _)] at hs
      simp [hlt] at hs
    rw [h0]
    simp [roundMag_zero 1 one_pos]
  · rfl

/-- A finite sum that is not negative, bounded by a representable bound, as a number. -/
theorem orderKey_faddFinite_le {a b : F} {m : Nat} (h0 : 0 ≤ unitsOf a + unitsOf b) (hm : m ≤ infMag)
    (h : unitsOf a + unitsOf b ≤ unitsOfMag m) :
    0 ≤ orderKey (faddFinite a b) ∧ orderKey (faddFinite a b) ≤ m := by
  rw [orderKey_faddFinite h0]
  have := roundMag_le (n := (unitsOf a + unitsOf b).natAbs) (d := 1) hm one_pos (by omega)
  omega

theorem unitsOf_fneg (a : F) : unitsOf (fneg a) = -unitsOf a := by
  unfold unitsOf fneg
  rw [isNeg_pack _ (magOf_lt a), magOf_pack _ (magOf_lt a)]
  cases isNeg a <;> simp

theorem isFinite_fneg {a : F} (h : isFinite a = true) : isFinite (fneg a) = true := by
  rw [isFinite_iff] at *
  rwa [fneg, magOf_pack _ (magOf_lt a)]

/-! ### Products -/

/-- A product of values that are not negative and of which an infinite one meets no zero is a value that is not
negative, and no NaN. -/
theorem fmul_nonneg {nan a b : F} (ha : isNaN a = false) (hb : isNaN b = false) (ha0 : isNeg a = false)
    (hb0 : isNeg b = false) (hi : isInf a = true → magOf b ≠ 0) (hj : isInf b = true → magOf a ≠ 0) :
    isNaN (fmul nan a b) = false ∧ isNeg (fmul nan a b) = false := by
  unfold fmul
  rw [ha, hb, ha0, hb0]
  simp only [Bool.or_self, Bool.false_eq_true, if_false, Bool.or_eq_true, decide_eq_true_eq]
  split
  · next h =>
    have hne : ¬ (magOf a = 0 ∨ magOf b = 0) := by
      rintro (h0 | h0)
      · rcases h with h | h
        · rw [isInf_iff, h0] at h; exact absurd h (by decide)
        · exact hj h h0
      · rcases h with h | h
        · exact hi h h0
        · rw [isInf_iff, h0] at h; exact absurd h (by decide)
    rw [if_neg hne, isNeg_pack _ infMag_lt]
    simp [isNaN, magOf_pack _ infMag_lt]
  · rw [isNeg_pack _ (roundMag_lt _ _)]
    have := roundMag_le_infMag (unitsOfMag (magOf a) * unitsOfMag (magOf b)) oneUnits
    simp [isNaN, magOf_pack _ (roundMag_lt _ _), this]

theorem fmul_finite {nan a b : F} (ha : isFinite a = true) (hb : isFinite b = true) :
    fmul nan a b = pack (isNeg a != isNeg b) (roundMag (unitsOfMag (magOf a) * unitsOfMag (magOf b)) oneUnits) := by
  simp [fmul, isNaN_of_isFinite ha, isNaN_of_isFinite hb, isInf_of_isFinite ha, isInf_of_isFinite hb]

/-! ### Integers -/

/-- `of_uint` is exact below `2^53` (R8). -/
theorem unitsOfMag_ofUint {n : Nat} (h : n ≤ 2 ^ 53) : unitsOfMag (roundMag (n * oneUnits) 1) = n * oneUnits := by
  have := unitsOfMag_roundMag (j := 1074) h (by norm_num) 1 one_pos
  rwa [mul_one, ← oneUnits_eq] at this

end Sys2Proof.Laws
end

