-- ==== Sys2Proof/Laws/Lfo.lean ====
section
/-! SUPPORT. The oscillator: the sine has the properties of R103, the factor lies in `[+0.0, 2.0]` (R104), and the
phase invariant is kept by the advance and the wrap (R106). -/

namespace Sys2Proof.Laws

open Sys2Proof Sys2Proof.Machine

/-- `2.0`. -/
def two : F := 0x4000000000000000

/-! ### The parameters of the spec's FLG -/

@[simp] theorem params_twoPi : Config.params.twoPi = Config.twoPi := rfl
@[simp] theorem params_format : Config.params.format = Config.binary64 := rfl
@[simp] theorem params_idxW : Config.params.idxW = Config.idxW := rfl
@[simp] theorem params_nW : Config.params.nW = Config.nW := rfl

/-- At the spec's parameters equality wraps (R102, 90_conflicts.md C1). -/
theorem wrapPhase_eq (nan p : F) :
    wrapPhase Config.params nan p = if fge p Config.twoPi then fsub nan p Config.twoPi else p := rfl

/-- At the spec's parameters the increment is the rule's (R101). -/
theorem incrementOf_eq (nan modFreq srF : F) :
    incrementOf Config.params nan modFreq srF = fdiv nan (fmul nan Config.twoPi modFreq) srF := rfl

/-- At the spec's parameters the factor is the rule's, in binary64 (R100). -/
theorem lfoFactor_eq (nan p : F) : lfoFactor Config.params nan p = fadd nan one (sine Config.params p) := rfl

/-- At the spec's parameters the advance is the rule's, in binary64 (R100). -/
theorem lfoPhase_eq (nan p inc : F) :
    lfoPhase Config.params nan p inc = wrapPhase Config.params nan (fadd nan p inc) := rfl

/-! ### The sine -/

/-- The parameters of the spec's FLG have a sine with the properties of R103. -/
theorem params_sineOk : SineOk Config.params := Config.sineFn.fn.property

/-- Writing P2 out does not change an admissible sine. -/
theorem sine_eq {pm : Parameters} (h : SineOk pm) (x : F) : sine pm x = pm.sin x := by
  unfold sine
  split
  · next hx => exact ((h x).1 hx).symm
  · rfl

/-- The sine of the model has the properties P2 to P4 (R103). -/
theorem sine_admissible (x : F) : SineAdmissible Config.twoPi Config.sinEps x (sine Config.params x) := by
  rw [sine_eq params_sineOk]; exact params_sineOk x

@[simp] theorem sine_posZero : sine Config.params posZero = posZero := (sine_admissible posZero).1 rfl

theorem orderKey_one : orderKey one = 0x3FF0000000000000 := by decide

theorem orderKey_twoPi : orderKey Config.twoPi = 0x401921FB54442D18 := by decide

theorem isFinite_one : isFinite one = true := by decide

theorem isFinite_twoPi : isFinite Config.twoPi = true := by decide

theorem unitsOf_twoPi : unitsOf Config.twoPi = unitsOfMag 0x401921FB54442D18 := by
  rw [orderKey_nonneg_units (by decide), orderKey_twoPi]; rfl

theorem unitsOf_one : unitsOf one = unitsOfMag 0x3FF0000000000000 := by
  rw [orderKey_nonneg_units (by decide), orderKey_one]; rfl

/-! ### Sound phases -/

theorem phaseOk_iff {p : F} : phaseOk p = true ↔ isFinite p = true ∧ 0 ≤ orderKey p ∧ orderKey p < orderKey Config.twoPi := by
  unfold phaseOk
  simp only [Bool.and_eq_true, fge_iff, flt_iff, orderKey_posZero]
  constructor
  · rintro ⟨⟨h1, -, -, h2⟩, -, -, h3⟩
    exact ⟨h1, h2, h3⟩
  · rintro ⟨h1, h2, h3⟩
    have := isNaN_of_isFinite h1
    exact ⟨⟨h1, this, isNaN_posZero, h2⟩, this, isNaN_of_isFinite isFinite_twoPi, h3⟩

@[simp] theorem phaseOk_posZero : phaseOk posZero = true := by decide

/-- On a sound phase the sine is a finite value between `-1` and `1` (R103 P3). -/
theorem sine_range {p : F} (h : phaseOk p = true) :
    isFinite (sine Config.params p) = true ∧ -orderKey one ≤ orderKey (sine Config.params p) ∧ orderKey (sine Config.params p) ≤ orderKey one := by
  rw [phaseOk_iff] at h
  have h0 : fge p posZero = true := fge_iff.2 ⟨isNaN_of_isFinite h.1, isNaN_posZero, by simpa using h.2.1⟩
  have h1 : fge Config.twoPi p = true :=
    fge_iff.2 ⟨isNaN_of_isFinite isFinite_twoPi, isNaN_of_isFinite h.1, h.2.2.le⟩
  obtain ⟨hn, hlo, hhi, -⟩ := (sine_admissible p).2 h.1 h0 h1
  rw [fge_iff] at hlo hhi
  have e : orderKey minusOne = -orderKey one := by decide
  refine ⟨?_, by rw [← e]; exact hlo.2.2, hhi.2.2⟩
  have hk := hhi.2.2
  have hl := hlo.2.2
  rw [orderKey_one] at hk
  rw [e, orderKey_one] at hl
  rw [isFinite_iff]
  have hm : infMag = 0x7FF0000000000000 := rfl
  generalize sine Config.params p = y at *
  rw [hm]
  unfold orderKey at hk hl
  by_cases hs : isNeg y = true
  · rw [if_pos hs] at hl; omega
  · rw [if_neg hs] at hk; omega

theorem isNeg_faddFinite {a b : F} (h : 0 ≤ unitsOf a + unitsOf b) (ha : isNeg a = false) :
    isNeg (faddFinite a b) = false := by
  unfold faddFinite
  split
  · rw [isNeg_pack _ (by norm_num), ha, Bool.false_and]
  · rw [isNeg_pack _ (roundMag_lt _ _)]
    simp; omega

/-- The factor of a sound phase is a number in `[+0.0, 2.0]`, never `-0.0` (R104). -/
theorem lfoFactor_range {p : F} (nan : F) (h : phaseOk p = true) :
    isFinite (lfoFactor Config.params nan p) = true ∧ isNeg (lfoFactor Config.params nan p) = false ∧
      orderKey (lfoFactor Config.params nan p) ≤ orderKey two := by
  obtain ⟨hf, hlo, hhi⟩ := sine_range h
  rw [lfoFactor_eq, fadd_finite isFinite_one hf]
  have hu1 : unitsOf (sine Config.params p) ≤ unitsOf one := (unitsOf_le_iff _ _).2 hhi
  have hu2 : -unitsOf one ≤ unitsOf (sine Config.params p) := by
    rw [← unitsOf_fneg, unitsOf_le_iff]
    rwa [show orderKey (fneg one) = -orderKey one by decide]
  have h0 : 0 ≤ unitsOf one + unitsOf (sine Config.params p) := by omega
  have h2 : unitsOf one + unitsOf (sine Config.params p) ≤ unitsOfMag (0x3FF0000000000000 + 2 ^ 52) := by
    rw [unitsOfMag_double (by norm_num)]
    rw [unitsOf_one] at *
    push_cast
    omega
  obtain ⟨k0, k1⟩ := orderKey_faddFinite_le h0 (by rw [infMag_eq]; norm_num) h2
  refine ⟨isFinite_of_orderKey k0 (lt_of_le_of_lt k1 (by rw [infMag_eq]; norm_num)), isNeg_faddFinite h0 (by decide), ?_⟩
  exact k1.trans (by decide)

/-! ### The advance and the wrap -/

/-- (I-5) of R41: a finite increment in `(0, TWO_PI)`. -/
def incOk (i : F) : Bool := fgt i posZero && flt i Config.twoPi

theorem incOk_iff {i : F} : incOk i = true ↔ isNaN i = false ∧ 0 < orderKey i ∧ orderKey i < orderKey Config.twoPi := by
  unfold incOk
  simp only [Bool.and_eq_true, fgt_iff, flt_iff, orderKey_posZero]
  constructor
  · rintro ⟨⟨h1, -, h2⟩, -, -, h3⟩; exact ⟨h1, h2, h3⟩
  · rintro ⟨h1, h2, h3⟩
    exact ⟨⟨h1, isNaN_posZero, h2⟩, h1, isNaN_of_isFinite isFinite_twoPi, h3⟩

theorem isFinite_of_incOk {i : F} (h : incOk i = true) : isFinite i = true := by
  rw [incOk_iff] at h
  refine isFinite_of_orderKey h.2.1.le (lt_trans h.2.2 ?_)
  rw [orderKey_twoPi, infMag_eq]; norm_num

/-- The units of a value that is below `TWO_PI` and not negative. -/
theorem unitsOf_below_twoPi {a : F} (h0 : 0 ≤ orderKey a) (h1 : orderKey a < orderKey Config.twoPi) :
    0 ≤ unitsOf a ∧ unitsOf a ≤ unitsOfMag (0x401921FB54442D17) := by
  refine ⟨unitsOf_nonneg h0, ?_⟩
  rw [orderKey_nonneg_units h0, Int.ofNat_le, unitsOfMag_le_iff]
  rw [orderKey_twoPi] at h1
  omega

/-- The phase invariant: the advance of a sound phase by an increment in `(0, TWO_PI)`, wrapped, is sound (R106). -/
theorem lfoPhase_sound {p i : F} (nan : F) (hp : phaseOk p = true) (hi : incOk i = true) :
    phaseOk (lfoPhase Config.params nan p i) = true := by
  have fi := isFinite_of_incOk hi
  rw [incOk_iff] at hi
  rw [phaseOk_iff] at hp
  obtain ⟨p0, p1⟩ := unitsOf_below_twoPi hp.2.1 hp.2.2
  obtain ⟨i0, i1⟩ := unitsOf_below_twoPi hi.2.1.le hi.2.2
  have h0 : 0 ≤ unitsOf p + unitsOf i := by omega
  have hsum : unitsOf p + unitsOf i ≤ unitsOfMag (0x401921FB54442D17 + 2 ^ 52) := by
    rw [unitsOfMag_double (by norm_num)]; push_cast; omega
  obtain ⟨q0, q1⟩ := orderKey_faddFinite_le h0 (by rw [infMag_eq]; norm_num) hsum
  rw [lfoPhase_eq, fadd_finite hp.1 fi]
  generalize hq : faddFinite p i = q at *
  have fq : isFinite q = true := isFinite_of_orderKey q0 (lt_of_le_of_lt q1 (by rw [infMag_eq]; norm_num))
  rw [wrapPhase_eq]
  split
  · next hge =>
    rw [fge_iff] at hge
    have ht := hge.2.2
    rw [fsub, fadd_finite fq (isFinite_fneg isFinite_twoPi)]
    have hu : unitsOf q ≤ unitsOfMag (0x401921FB54442D17 + 2 ^ 52) := by
      rw [orderKey_nonneg_units q0, Int.ofNat_le, unitsOfMag_le_iff]; omega
    have hl : unitsOf Config.twoPi ≤ unitsOf q := (unitsOf_le_iff _ _).2 ht
    have hspace : 2 * unitsOfMag (0x401921FB54442D17) ≤
        unitsOfMag (0x401921FB54442D16) + unitsOfMag 0x401921FB54442D18 := by decide +kernel
    rw [unitsOfMag_double (by norm_num)] at hu
    have hd0 : 0 ≤ unitsOf q + unitsOf (fneg Config.twoPi) := by rw [unitsOf_fneg]; omega
    have hd1 : unitsOf q + unitsOf (fneg Config.twoPi) ≤ unitsOfMag (0x401921FB54442D16) := by
      rw [unitsOf_fneg, unitsOf_twoPi]
      push_cast at hu
      omega
    obtain ⟨r0, r1⟩ := orderKey_faddFinite_le hd0 (by rw [infMag_eq]; norm_num) hd1
    rw [phaseOk_iff, orderKey_twoPi]
    refine ⟨isFinite_of_orderKey r0 (lt_of_le_of_lt r1 (by rw [infMag_eq]; norm_num)), r0, ?_⟩
    omega
  · next hge =>
    rw [phaseOk_iff]
    refine ⟨fq, q0, ?_⟩
    by_contra hc
    exact hge (fge_iff.2 ⟨isNaN_of_isFinite fq, isNaN_of_isFinite isFinite_twoPi, not_lt.1 hc⟩)

/-- The advance and the wrap keep no NaN: the draw is not spent and does not matter. -/
theorem lfoPhase_nan {p i : F} (nan nan' : F) (hp : phaseOk p = true) (hi : incOk i = true) :
    lfoPhase Config.params nan p i = lfoPhase Config.params nan' p i := by
  have fi := isFinite_of_incOk hi
  have fp := (phaseOk_iff.1 hp).1
  rw [lfoPhase_eq, lfoPhase_eq, fadd_finite fp fi, fadd_finite fp fi]
  rw [wrapPhase_eq, wrapPhase_eq]
  split
  · have hq : isFinite (faddFinite p i) = true := by
      rw [incOk_iff] at hi
      rw [phaseOk_iff] at hp
      obtain ⟨p0, p1⟩ := unitsOf_below_twoPi hp.2.1 hp.2.2
      obtain ⟨i0, i1⟩ := unitsOf_below_twoPi hi.2.1.le hi.2.2
      have hsum : unitsOf p + unitsOf i ≤ unitsOfMag (0x401921FB54442D17 + 2 ^ 52) := by
        rw [unitsOfMag_double (by norm_num)]; push_cast; omega
      obtain ⟨q0, q1⟩ := orderKey_faddFinite_le (by omega) (by rw [infMag_eq]; norm_num) hsum
      exact isFinite_of_orderKey q0 (lt_of_le_of_lt q1 (by rw [infMag_eq]; norm_num))
    rw [fsub, fsub, fadd_finite hq (isFinite_fneg isFinite_twoPi), fadd_finite hq (isFinite_fneg isFinite_twoPi)]
  · rfl

end Sys2Proof.Laws
end

