-- ==== Sys2Proof/Laws/Configure.lean ====
section
/-! SUPPORT. The checks of CFG_COMMIT, what a configuration that passes them guarantees, and that no NaN arises from
one (R143, R144, R41). -/

namespace Sys2Proof.Laws

open Sys2Proof Sys2Proof.Machine

/-! ### The checks and the derived values at the spec's parameters, in binary64 -/

theorem modFreqIsLegal_eq (nan : F) (c : EffectConfig) : modFreqIsLegal Config.params nan c =
    (isFinite c.modFreq && fgt c.modFreq posZero &&
      (fgt (incrementOf Config.params nan c.modFreq (ofUint c.sampleRate.toNat)) posZero &&
        flt (incrementOf Config.params nan c.modFreq (ofUint c.sampleRate.toNat)) Config.twoPi)) := rfl

theorem firstFailing_eq (nan : F) (c : EffectConfig) : firstFailing Config.params nan c =
    if !depthIsNumeric c then .depthNotNumeric
    else if !depthIsPositive c then .depthNotPositive
    else if !sampleRateIsLegal Config.params c then .badSampleRate
    else if !modFreqIsLegal Config.params nan c then .badModFreq
    else if !gainsAreFinite c then .badGain
    else .none := rfl

theorem deriveFrom_eq (nan : F) (c : EffectConfig) : deriveFrom Config.params nan c =
    ⟨c.sampleRate.toNat / 20 % 2 ^ 17, ofUint c.sampleRate.toNat,
      incrementOf Config.params nan c.modFreq (ofUint c.sampleRate.toNat)⟩ := rfl

/-- No check fails exactly when all five hold (R143). -/
theorem firstFailing_none {nan : F} {c : EffectConfig} :
    firstFailing Config.params nan c = .none ↔ depthIsNumeric c = true ∧ depthIsPositive c = true ∧ sampleRateIsLegal Config.params c = true ∧
      modFreqIsLegal Config.params nan c = true ∧ gainsAreFinite c = true := by
  rw [firstFailing_eq]
  cases depthIsNumeric c <;> cases depthIsPositive c <;> cases sampleRateIsLegal Config.params c <;> cases modFreqIsLegal Config.params nan c <;>
    cases gainsAreFinite c <;> simp

theorem sampleRateIsLegal_iff {c : EffectConfig} :
    sampleRateIsLegal Config.params c = true ↔ 20 ≤ c.sampleRate.toNat ∧ c.sampleRate.toNat ≤ 1310739 := by
  rw [sampleRateIsLegal, Bool.and_eq_true, decide_eq_true_eq, decide_eq_true_eq]
  rfl

/-- The capacity that a legal sample rate gives fits its register and lies in `[1, CAP_MAX]`, for every FLG whose
indices reach its sample memory (R6, R144, R41 I-4). -/
theorem cap_of_legal {pm : Parameters} {nan : F} {c : EffectConfig} (hd : 1 ≤ pm.capDivisor)
    (hm : pm.capMax ≤ 2 ^ pm.idxW) (h : sampleRateIsLegal pm c = true) :
    (deriveFrom pm nan c).cap = c.sampleRate.toNat / pm.capDivisor ∧
      1 ≤ c.sampleRate.toNat / pm.capDivisor ∧ c.sampleRate.toNat / pm.capDivisor ≤ pm.capMax := by
  rw [sampleRateIsLegal, Bool.and_eq_true, decide_eq_true_eq, decide_eq_true_eq] at h
  have h1 := Nat.div_pos h.1 hd
  have h2 : c.sampleRate.toNat / pm.capDivisor < pm.capMax + 1 := Nat.div_lt_of_lt_mul (by rw [Nat.mul_add]; omega)
  have h3 : 2 ^ pm.idxW < 2 ^ (pm.idxW + 1) := Nat.pow_lt_pow_succ (by decide)
  exact ⟨Nat.mod_eq_of_lt (by omega), h1, by omega⟩

/-! ### The sample rate as a number -/

theorem magOf_ofUint {n : Nat} : magOf (ofUint n) = roundMag (n * oneUnits) 1 := by
  rw [ofUint, magOf_pack _ (roundMag_lt _ _)]

@[simp] theorem isNeg_ofUint (n : Nat) : isNeg (ofUint n) = false := by
  rw [ofUint, isNeg_pack _ (roundMag_lt _ _)]

theorem isFinite_ofUint {n : Nat} (h : n ≤ 2 ^ 53) : isFinite (ofUint n) = true := by
  obtain ⟨m, h1, h2⟩ := exists_mag 1074 n h
  have h3 : m < infMag := by rw [infMag_eq]; linarith
  rw [isFinite_iff, magOf_ofUint, oneUnits_eq, ← h1]
  have := roundMag_exact h3.le one_pos
  rw [mul_one] at this
  rwa [this]

/-- `of_uint` denotes its argument (R8). -/
theorem unitsOf_ofUint {n : Nat} (h : n ≤ 2 ^ 53) : unitsOf (ofUint n) = n * (oneUnits : Int) := by
  rw [unitsOf, isNeg_ofUint, magOf_ofUint, unitsOfMag_ofUint h]
  push_cast
  simp

theorem magOf_ofUint_pos {n : Nat} (h0 : 0 < n) (h : n ≤ 2 ^ 53) : 0 < magOf (ofUint n) := by
  have := unitsOfMag_ofUint h
  rw [← magOf_ofUint] at this
  rcases Nat.eq_zero_or_pos (magOf (ofUint n)) with h1 | h1
  · rw [h1, unitsOfMag_zero] at this
    have := Nat.mul_pos h0 oneUnits_pos
    omega
  · exact h1

/-! ### The increment -/

/-- With a finite modulation frequency and a sample rate in range the increment is no NaN and needs no draw. -/
theorem incrementOf_nan {mf : F} {n : Nat} (nan nan' : F) (hf : isFinite mf = true) (h0 : 0 < n) (hn : n ≤ 2 ^ 53) :
    incrementOf Config.params nan mf (ofUint n) = incrementOf Config.params nan' mf (ofUint n) := by
  have fs := isFinite_ofUint hn
  have ms := magOf_ofUint_pos h0 hn
  rw [incrementOf_eq, incrementOf_eq]
  rw [fmul_finite isFinite_twoPi hf, fmul_finite isFinite_twoPi hf]
  generalize hq : pack (isNeg Config.twoPi != isNeg mf)
    (roundMag (unitsOfMag (magOf Config.twoPi) * unitsOfMag (magOf mf)) oneUnits) = q
  have nq : isNaN q = false := by
    rw [← hq]
    have := roundMag_le_infMag (unitsOfMag (magOf Config.twoPi) * unitsOfMag (magOf mf)) oneUnits
    simp [isNaN, magOf_pack _ (roundMag_lt _ _), this]
  unfold fdiv
  rw [nq, isNaN_of_isFinite fs, isInf_of_isFinite fs, if_neg ms.ne', if_neg ms.ne']
  simp

theorem modFreqIsLegal_iff {nan : F} {c : EffectConfig} :
    modFreqIsLegal Config.params nan c = true ↔ isFinite c.modFreq = true ∧ fgt c.modFreq posZero = true ∧
      incOk (incrementOf Config.params nan c.modFreq (ofUint c.sampleRate.toNat)) = true := by
  simp [modFreqIsLegal_eq, incOk, and_assoc]

/-- Whether the checks pass, and which fails first, does not depend on what stands for a NaN (R143, R177). -/
theorem firstFailing_nan (nan nan' : F) (c : EffectConfig) : firstFailing Config.params nan c = firstFailing Config.params nan' c := by
  rw [firstFailing_eq, firstFailing_eq]
  by_cases hs : sampleRateIsLegal Config.params c = true
  · have hr := sampleRateIsLegal_iff.1 hs
    have : modFreqIsLegal Config.params nan c = modFreqIsLegal Config.params nan' c := by
      by_cases hf : isFinite c.modFreq = true
      · rw [modFreqIsLegal_eq, modFreqIsLegal_eq, incrementOf_nan nan nan' hf (by omega) (by omega)]
      · simp [modFreqIsLegal_eq, hf]
    rw [this]
  · simp [hs]

/-- What passing the checks gives about the configuration and what is derived from it (R41 I-4 to I-6, R144). -/
structure Passed (nan : F) (c : EffectConfig) : Prop where
  rate_lo : 20 ≤ c.sampleRate.toNat
  rate_hi : c.sampleRate.toNat ≤ 1310739
  depth_finite : isFinite c.depth = true
  depth_pos : 0 < orderKey c.depth
  dry_finite : isFinite c.dryGain = true
  wet_finite : isFinite c.wetGain = true
  mod_finite : isFinite c.modFreq = true
  cap_eq : (deriveFrom Config.params nan c).cap = c.sampleRate.toNat / 20
  cap_pos : 0 < (deriveFrom Config.params nan c).cap
  cap_le : (deriveFrom Config.params nan c).cap ≤ 65536
  sr_finite : isFinite (deriveFrom Config.params nan c).srF = true
  sr_neg : isNeg (deriveFrom Config.params nan c).srF = false
  sr_pos : 0 < magOf (deriveFrom Config.params nan c).srF
  inc : incOk (deriveFrom Config.params nan c).phaseInc = true

theorem passed {nan : F} {c : EffectConfig} (h : firstFailing Config.params nan c = .none) : Passed nan c := by
  rw [firstFailing_none, modFreqIsLegal_iff] at h
  obtain ⟨h1, h2, h3, h4, h5⟩ := h
  have hc : (deriveFrom Config.params nan c).cap = c.sampleRate.toNat / 20 :=
    (cap_of_legal (by decide) (by decide) h3).1
  rw [sampleRateIsLegal_iff] at h3
  simp only [gainsAreFinite, Bool.and_eq_true] at h5
  simp only [depthIsPositive, fgt_iff, orderKey_posZero] at h2
  exact
    { rate_lo := h3.1
      rate_hi := h3.2
      depth_finite := h1
      depth_pos := h2.2.2
      dry_finite := h5.1
      wet_finite := h5.2
      mod_finite := h4.1
      cap_eq := hc
      cap_pos := by omega
      cap_le := by omega
      sr_finite := isFinite_ofUint (by omega)
      sr_neg := isNeg_ofUint _
      sr_pos := magOf_ofUint_pos (by omega) (by omega)
      inc := h4.2.2 }

/-- What is derived from a configuration that passes does not depend on what stands for a NaN. -/
theorem deriveFrom_nan {nan : F} {c : EffectConfig} (nan' : F) (h : firstFailing Config.params nan c = .none) :
    deriveFrom Config.params nan c = deriveFrom Config.params nan' c := by
  have p := passed h
  rw [deriveFrom_eq, deriveFrom_eq, incrementOf_nan nan nan' p.mod_finite (by have := p.rate_lo; omega) (by have := p.rate_hi; omega)]

/-- Sound derived registers come from a configuration that passes. -/
theorem derivedOk_iff {c : EffectConfig} {r : Derived} :
    derivedOk c r = true ↔ firstFailing Config.params posZero c = .none ∧ r = deriveFrom Config.params posZero c := by
  simp [derivedOk]

theorem derivedOk_deriveFrom {nan : F} {c : EffectConfig} (h : firstFailing Config.params nan c = .none) :
    derivedOk c (deriveFrom Config.params nan c) = true := by
  rw [derivedOk_iff, firstFailing_nan posZero nan]
  exact ⟨h, deriveFrom_nan posZero h⟩

/-- The capacity of sound derived registers (R41 I-4). -/
theorem cap_bounds {c : EffectConfig} {r : Derived} (h : derivedOk c r = true) :
    0 < r.cap ∧ r.cap ≤ 65536 := by
  obtain ⟨hf, rfl⟩ := derivedOk_iff.1 h
  exact ⟨(passed hf).cap_pos, (passed hf).cap_le⟩

end Sys2Proof.Laws
end

