-- ==== Sys2Proof/Laws/Memory.lean ====
section
/-! SUPPORT. The delay buffer as a canonical list: a read after a write, and that every operation keeps the form. -/

namespace Sys2Proof.Laws

open Sys2Proof Sys2Proof.Machine

@[simp] theorem memRead_blankBuffer (i : Nat) : memRead blankBuffer i = blankWord := rfl

@[simp] theorem memWf_blankBuffer (cap : Nat) : memWf cap blankBuffer = true := rfl

theorem memWfFrom_cons {cap lo j : Nat} {w : F} {m : Memory} :
    memWfFrom cap lo ((j, w) :: m) = true ↔ lo ≤ j ∧ j < cap ∧ w ≠ blankWord ∧ memWfFrom cap (j + 1) m = true := by
  simp [memWfFrom, and_assoc]

theorem memWfFrom_weaken {cap lo lo' : Nat} {m : Memory} (h : memWfFrom cap lo m = true) (hle : lo' ≤ lo) :
    memWfFrom cap lo' m = true := by
  cases m with
  | nil => rfl
  | cons c m =>
    obtain ⟨j, w⟩ := c
    rw [memWfFrom_cons] at h ⊢
    exact ⟨hle.trans h.1, h.2⟩

/-- Below the first index a canonical list may hold, it reads as blank. -/
theorem memRead_below {cap lo i : Nat} {m : Memory} (h : memWfFrom cap lo m = true) (hi : i < lo) :
    memRead m i = blankWord := by
  induction m generalizing lo with
  | nil => rfl
  | cons c m ih =>
    obtain ⟨j, w⟩ := c
    rw [memWfFrom_cons] at h
    rw [memRead, if_neg (by omega)]
    exact ih h.2.2.2 (by omega)

/-- At or above the capacity a canonical list reads as blank. -/
theorem memRead_above {cap lo i : Nat} {m : Memory} (h : memWfFrom cap lo m = true) (hi : cap ≤ i) :
    memRead m i = blankWord := by
  induction m generalizing lo with
  | nil => rfl
  | cons c m ih =>
    obtain ⟨j, w⟩ := c
    rw [memWfFrom_cons] at h
    rw [memRead, if_neg (by omega)]
    exact ih h.2.2.2

/-- A write leaves every other index alone, whatever the list. -/
theorem memRead_memWrite_ne (m : Memory) {i a : Nat} (v : F) (h : a ≠ i) : memRead (memWrite m i v) a = memRead m a := by
  induction m with
  | nil => simp only [memWrite]; split <;> simp [memRead, h]
  | cons c m ih =>
    obtain ⟨j, w⟩ := c
    simp only [memWrite]
    split
    · split <;> simp [memRead, h]
    · split
      · subst i; split <;> simp [memRead, h]
      · simp [memRead, ih]

/-- A read at the index just written gives the value written. -/
theorem memRead_memWrite_same {cap lo : Nat} {m : Memory} (h : memWfFrom cap lo m = true) (i : Nat) (v : F) :
    memRead (memWrite m i v) i = v := by
  induction m generalizing lo with
  | nil => simp only [memWrite]; split <;> simp_all [memRead]
  | cons c m ih =>
    obtain ⟨j, w⟩ := c
    rw [memWfFrom_cons] at h
    simp only [memWrite]
    split
    · next hlt =>
      split
      · next hv =>
        subst hv
        rw [memRead, if_neg (by omega)]
        exact memRead_below h.2.2.2 (by omega)
      · simp [memRead]
    · split
      · next _ he =>
        split
        · next hv => subst hv; exact memRead_below h.2.2.2 (by omega)
        · simp [memRead]
      · next hne =>
        rw [memRead, if_neg hne]
        exact ih h.2.2.2

/-- A write inside the capacity keeps the canonical form. -/
theorem memWfFrom_memWrite {cap lo i : Nat} {m : Memory} (h : memWfFrom cap lo m = true) (hlo : lo ≤ i) (hi : i < cap)
    (v : F) : memWfFrom cap lo (memWrite m i v) = true := by
  induction m generalizing lo with
  | nil =>
    simp only [memWrite]
    split
    · rfl
    · next hv => simp [memWfFrom, hlo, hi, hv]
  | cons c m ih =>
    obtain ⟨j, w⟩ := c
    have h' := h
    rw [memWfFrom_cons] at h
    simp only [memWrite]
    split
    · next hlt =>
      split
      · exact h'
      · next hv =>
        rw [memWfFrom_cons, memWfFrom_cons]
        exact ⟨hlo, hi, hv, by omega, h.2.1, h.2.2⟩
    · split
      · next hij =>
        split
        · exact memWfFrom_weaken h.2.2.2 (by omega)
        · next hv => rw [memWfFrom_cons]; exact ⟨hlo, hi, hv, by rw [hij]; exact h.2.2.2⟩
      · rw [memWfFrom_cons]
        exact ⟨h.1, h.2.1, h.2.2.1, ih h.2.2.2 (by omega)⟩

theorem memWf_memWrite {cap i : Nat} {m : Memory} (h : memWf cap m = true) (hi : i < cap) (v : F) :
    memWf cap (memWrite m i v) = true := memWfFrom_memWrite h (Nat.zero_le _) hi v

/-- Writing OPEN's zero to a buffer that is blank there leaves it blank (R146: the writes of OPEN). -/
theorem memWrite_blankBuffer (i : Nat) : memWrite blankBuffer i blankWord = blankBuffer := by
  simp [memWrite, blankBuffer]

/-- What a read of the buffer can answer. -/
theorem bufRead_ok {cap i : Nat} {m : Memory} {v : F} : bufRead cap m i = .ok v ↔ i < cap ∧ v = memRead m i := by
  unfold bufRead; split <;> simp_all [eq_comm]

/-- What a write of the buffer can answer. -/
theorem bufWrite_ok {cap i : Nat} {m m' : Memory} {v : F} :
    bufWrite cap m i v = .ok m' ↔ i < cap ∧ m' = memWrite m i v := by
  unfold bufWrite; split <;> simp_all [eq_comm]

end Sys2Proof.Laws
end

