-- ==== Sys2Proof/Laws/State.lean ====
section
/-! SUPPORT. The fields of an answered state and of a machine after reset: one lemma per field, each true by
unfolding, so that no later proof unfolds an update. -/

namespace Sys2Proof.Laws

open Sys2Proof Sys2Proof.Machine

@[simp] theorem answer_cfg (s : State) (st : Status) (d : List DataWord) : (s.answer st d).cfg = s.cfg := rfl
@[simp] theorem answer_derived (s : State) (st : Status) (d : List DataWord) : (s.answer st d).derived = s.derived := rfl
@[simp] theorem answer_engine (s : State) (st : Status) (d : List DataWord) : (s.answer st d).engine = s.engine := rfl
@[simp] theorem answer_lstate (s : State) (st : Status) (d : List DataWord) : (s.answer st d).lstate = s.lstate := rfl
@[simp] theorem answer_errCause (s : State) (st : Status) (d : List DataWord) :
    (s.answer st d).errCause = s.errCause := rfl
@[simp] theorem answer_pending (s : State) (st : Status) (d : List DataWord) : (s.answer st d).pending = s.pending := rfl
@[simp] theorem answer_responses (s : State) (st : Status) (d : List DataWord) :
    (s.answer st d).responses = s.responses ++ [⟨st, d⟩] := rfl
@[simp] theorem answer_nanDraws (s : State) (st : Status) (d : List DataWord) :
    (s.answer st d).nanDraws = s.nanDraws := rfl

@[simp] theorem resetMachine_cfg (s : State) : (resetMachine s).cfg = resetConfig Config.params := rfl
@[simp] theorem resetMachine_derived (s : State) : (resetMachine s).derived = none := rfl
@[simp] theorem resetMachine_engine (s : State) : (resetMachine s).engine = none := rfl
@[simp] theorem resetMachine_lstate (s : State) : (resetMachine s).lstate = .idle := rfl
@[simp] theorem resetMachine_errCause (s : State) : (resetMachine s).errCause = .none := rfl
@[simp] theorem resetMachine_pending (s : State) : (resetMachine s).pending = s.pending := rfl
@[simp] theorem resetMachine_responses (s : State) : (resetMachine s).responses = s.responses := rfl
@[simp] theorem resetMachine_nanDraws (s : State) : (resetMachine s).nanDraws = s.nanDraws := rfl

/-- What answering OK does. -/
theorem respond_next {s t : State} {d : List DataWord} (h : respond s d = .next t) : t = s.answer .ok d := by
  cases h; rfl

/-- What rejecting does: an answer, and nothing else. -/
theorem reject_next {s t : State} {st : Status} (h : reject s st = .next t) : t = s.answer st [] := by
  cases h; rfl

/-- What the configuration error does. -/
theorem raiseConfigError_next {s t : State} {c : ErrCause} (h : raiseConfigError s c = .next t) :
    t = ({ s with errCause := c, lstate := .error } : State).answer .ecfg [] := by
  cases h; rfl

end Sys2Proof.Laws
end

