-- ==== Sys2Proof/Laws/Engine.lean ====
section
/-! SUPPORT. One sample: everything it can do (`sampleEngine_ok`), and that on a sound engine it always answers
(`sampleEngine_sound`) and leaves a sound engine (R106, R114, R115, R118, R125, R175). -/

namespace Sys2Proof.Laws

open Sys2Proof Sys2Proof.Machine

/-! ### The delay path -/

theorem isNeg_of_orderKey_pos {a : F} (h : 0 < orderKey a) : isNeg a = false := by
  unfold orderKey at h
  split at h
  · omega
  · next hs => simpa using hs

/-- No NaN and no sign on the delay path (R112, R125). -/
theorem nextProduct_range {c : EffectConfig} {r : Derived} {e : Engine} (n : Nat) (hr : derivedOk c r = true)
    (hp : phaseOk e.phase = true) : isNaN (nextProduct c r n e) = false ∧ isNeg (nextProduct c r n e) = false := by
  obtain ⟨hf, rfl⟩ := derivedOk_iff.1 hr
  have p := passed hf
  obtain ⟨m1, m2, -⟩ := lfoFactor_range (drawNaN n) hp
  unfold nextProduct delayProduct
  obtain ⟨t1, t2⟩ := fmul_nonneg (nan := drawNaN n) (a := c.depth) (b := lfoFactor Config.params (drawNaN n) e.phase)
    (isNaN_of_isFinite p.depth_finite) (isNaN_of_isFinite m1) (isNeg_of_orderKey_pos p.depth_pos) m2
    (by rw [isInf_of_isFinite p.depth_finite]; simp) (by rw [isInf_of_isFinite m1]; simp)
  exact fmul_nonneg t1 (isNaN_of_isFinite p.sr_finite) t2 p.sr_neg (fun _ => p.sr_pos.ne')
    (by rw [isInf_of_isFinite p.sr_finite]; simp)

/-- The floor and the clamp of a product that is no NaN and not negative: `min(floor(u), CAP-1)` (R113, R114). -/
theorem delaySamples_range {cap : Nat} {u : F} (h0 : 0 < cap) (h1 : cap ≤ 2 ^ 53) (hn : isNaN u = false)
    (hs : isNeg u = false) :
    ∃ d, delaySamples cap u = .ok d ∧ d < cap ∧
      (fge u (ofUint (cap - 1)) = true → d = cap - 1) ∧
      (fge u (ofUint (cap - 1)) = false → isFinite u = true ∧ d = unitsOfMag (magOf u) / oneUnits) := by
  have ku := orderKey_of_pos hs
  have fs : isFinite (ofUint (cap - 1)) = true := isFinite_ofUint (by omega)
  unfold delaySamples
  by_cases hg : fge u (ofUint (cap - 1)) = true
  · rw [if_pos hg]
    exact ⟨cap - 1, rfl, by omega, fun _ => rfl, by rw [hg]; simp⟩
  · rw [if_neg hg]
    have hlt : orderKey u < orderKey (ofUint (cap - 1)) := by
      by_contra hc
      exact hg (fge_iff.2 ⟨hn, isNaN_of_isFinite fs, not_lt.1 hc⟩)
    have hku : orderKey (ofUint (cap - 1)) = magOf (ofUint (cap - 1)) := orderKey_of_pos (isNeg_ofUint _)
    have fu : isFinite u = true := by
      rw [isFinite_iff] at fs ⊢
      omega
    have hge : fge u posZero = true := fge_iff.2 ⟨hn, isNaN_posZero, by rw [orderKey_posZero, ku]; omega⟩
    rw [ffloorInt, fu, hge]
    simp only [Bool.and_self, if_true]
    refine ⟨_, rfl, ?_, ?_, fun _ => ⟨trivial, rfl⟩⟩
    · have hu : unitsOfMag (magOf u) < unitsOfMag (magOf (ofUint (cap - 1))) := by
        rw [unitsOfMag_lt_iff]; omega
      rw [magOf_ofUint, unitsOfMag_ofUint (by omega)] at hu
      have := Nat.div_lt_of_lt_mul (m := unitsOfMag (magOf u)) (n := oneUnits) (k := cap - 1) (by rw [mul_comm]; exact hu)
      omega
    · intro hc; exact absurd hc hg

/-- The delay of a sound engine lies in `[0, CAP-1]` (R114, R125). -/
theorem nextDelay_sound {c : EffectConfig} {r : Derived} {e : Engine} (n : Nat) (hr : derivedOk c r = true)
    (hp : phaseOk e.phase = true) : ∃ d, nextDelay c r n e = .ok d ∧ d < r.cap := by
  obtain ⟨u1, u2⟩ := nextProduct_range n hr hp
  obtain ⟨hf, rfl⟩ := derivedOk_iff.1 hr
  have p := passed hf
  obtain ⟨d, h1, h2, -, -⟩ := delaySamples_range p.cap_pos (by have := p.cap_le; omega) u1 u2
  exact ⟨d, h1, h2⟩

/-- The factor does not depend on what stands for a NaN. -/
theorem lfoFactor_nan {p : F} (nan nan' : F) (h : phaseOk p = true) : lfoFactor Config.params nan p = lfoFactor Config.params nan' p := by
  obtain ⟨hf, -, -⟩ := sine_range h
  rw [lfoFactor_eq, lfoFactor_eq, fadd_finite isFinite_one hf, fadd_finite isFinite_one hf]

theorem fmul_nan {nan nan' a b : F} (h : isNaN (fmul nan a b) = false ∨ isFinite a = true ∧ isFinite b = true)
    (h' : isNaN nan = true) : fmul nan a b = fmul nan' a b := by
  rcases h with h | h
  · unfold fmul at *
    split
    · next hc => rw [if_pos hc, h'] at h; simp at h
    · next hc =>
      rw [if_neg hc] at h
      split
      · next hd =>
        rw [if_pos hd] at h
        split
        · next he => rw [if_pos he, h'] at h; simp at h
        · rfl
      · rfl
  · rw [fmul_finite h.1 h.2, fmul_finite h.1 h.2]

/-- The payload of a draw, with the infinity's magnitude under it, is that of a NaN of binary64. -/
theorem drawNaN_eq (n : Nat) :
    drawNaN n = pack (Config.nanPayload n).1 (infMag + 1 + (Config.nanPayload n).2 % (2 ^ 52 - 1)) := rfl

theorem isNaN_drawNaN (n : Nat) : isNaN (drawNaN n) = true := by
  have h : (Config.nanPayload n).2 % (2 ^ 52 - 1) < 2 ^ 52 - 1 := Nat.mod_lt _ (by norm_num)
  rw [isNaN_iff, drawNaN_eq, magOf_pack _ (by rw [infMag_eq]; omega)]
  omega

/-- The delay in seconds of a sound engine does not depend on the NaN draws. -/
theorem nextSeconds_draws {c : EffectConfig} {r : Derived} {e : Engine} (n n' : Nat) (hr : derivedOk c r = true)
    (hp : phaseOk e.phase = true) : nextSeconds c n e = nextSeconds c n' e := by
  obtain ⟨hf, rfl⟩ := derivedOk_iff.1 hr
  have p := passed hf
  unfold nextSeconds
  rw [lfoFactor_nan (drawNaN n') (drawNaN n) hp]
  exact fmul_nan (.inr ⟨p.depth_finite, (lfoFactor_range (drawNaN n) hp).1⟩) (isNaN_drawNaN _)

/-- The delay product of a sound engine does not depend on the NaN draws. -/
theorem nextProduct_draws {c : EffectConfig} {r : Derived} {e : Engine} (n n' : Nat) (hr : derivedOk c r = true)
    (hp : phaseOk e.phase = true) : nextProduct c r n e = nextProduct c r n' e := by
  have hu := (nextProduct_range n hr hp).1
  show fmul (drawNaN n) (nextSeconds c n e) r.srF = fmul (drawNaN n') (nextSeconds c n' e) r.srF
  rw [nextSeconds_draws n' n hr hp]
  exact fmul_nan (.inl hu) (isNaN_drawNaN _)

/-- The delay of a sound engine does not depend on the NaN draws. -/
theorem nextDelay_draws {c : EffectConfig} {r : Derived} {e : Engine} (n n' : Nat) (hr : derivedOk c r = true)
    (hp : phaseOk e.phase = true) : nextDelay c r n e = nextDelay c r n' e :=
  congrArg (delaySamples r.cap) (nextProduct_draws n n' hr hp)

/-! ### Indices -/

theorem readIndex_lt {cap w d : Nat} (h : 0 < cap) : readIndex cap w d < cap := Nat.mod_lt _ h

/-- A register wide enough for the indices of the buffer loses no bit of the advanced cursor (R118). -/
theorem nextCursor_exact {cap w idxW : Nat} (hw : w < cap) (hc : cap ≤ 2 ^ idxW) :
    nextCursor cap w idxW = (w + 1) % cap :=
  Nat.mod_eq_of_lt (lt_of_lt_of_le (Nat.mod_lt _ (by omega)) hc)

theorem nextCursor_eq {cap w : Nat} (hw : w < cap) (hc : cap ≤ 65536) : nextCursor cap w = (w + 1) % cap :=
  nextCursor_exact hw hc

theorem nextCursor_lt {cap w : Nat} (hw : w < cap) (hc : cap ≤ 65536) : nextCursor cap w < cap := by
  rw [nextCursor_eq hw hc]; exact Nat.mod_lt _ (by omega)

/-! ### One sample -/

/-- Everything steps 5 to 7 can answer. -/
theorem sampleTail_ok {c : EffectConfig} {cap n : Nat} {e : Engine} {ph x : F} {d : Nat} {q : Sampled} :
    sampleTail Config.params c cap n e ph x d = .ok q ↔ readIndex cap e.wcur d < cap ∧ e.wcur < cap ∧
      q = ⟨mix (drawNaN n) c x (memRead e.dbuf (readIndex cap e.wcur d)),
        ⟨memWrite e.dbuf e.wcur x, nextCursor cap e.wcur, ph⟩,
        spendDraw n (mix (drawNaN n) c x (memRead e.dbuf (readIndex cap e.wcur d)))⟩ := by
  unfold sampleTail bufRead bufWrite
  rw [params_format, params_idxW]
  by_cases h1 : readIndex cap e.wcur d < cap <;> by_cases h2 : e.wcur < cap <;> simp [h1, h2, eq_comm]

/-- Everything one sample can answer on the engine state. -/
theorem sampleEngine_ok {c : EffectConfig} {r : Derived} {n : Nat} {e : Engine} {x : F} {q : Sampled} :
    sampleEngine Config.params c r n e x = .ok q ↔ ∃ d, nextDelay c r n e = .ok d ∧
      sampleTail Config.params c r.cap (spendDraw n (lfoPhase Config.params (drawNaN n) e.phase r.phaseInc)) e
        (lfoPhase Config.params (drawNaN n) e.phase r.phaseInc) x d = .ok q := by
  have h : sampleEngine Config.params c r n e x = match nextDelay c r n e with
    | .error f => .error f
    | .ok d => sampleTail Config.params c r.cap
        (spendDraw n (lfoPhase Config.params (drawNaN n) e.phase r.phaseInc)) e
        (lfoPhase Config.params (drawNaN n) e.phase r.phaseInc) x d := rfl
  rw [h]
  cases nextDelay c r n e <;> simp

theorem spendDraw_of_not_nan {n : Nat} {v : F} (h : isNaN v = false) : spendDraw n v = n := by
  simp [spendDraw, h]

/-- One sample on a sound engine: it always answers, by the formulas of R110. -/
theorem sampleEngine_sound {c : EffectConfig} {r : Derived} {e : Engine} (n : Nat) (x : F) (hr : derivedOk c r = true)
    (he : engineOk r.cap e = true) :
    ∃ d, nextDelay c r n e = .ok d ∧ d < r.cap ∧
      sampleEngine Config.params c r n e x = .ok
        ⟨mix (drawNaN n) c x (memRead e.dbuf (readIndex r.cap e.wcur d)),
          ⟨memWrite e.dbuf e.wcur x, nextCursor r.cap e.wcur, lfoPhase Config.params (drawNaN n) e.phase r.phaseInc⟩,
          spendDraw n (mix (drawNaN n) c x (memRead e.dbuf (readIndex r.cap e.wcur d)))⟩ := by
  simp only [engineOk, Bool.and_eq_true, decide_eq_true_eq] at he
  obtain ⟨⟨-, hw⟩, hp⟩ := he
  obtain ⟨d, hd, hlt⟩ := nextDelay_sound n hr hp
  have hi : incOk r.phaseInc = true := by
    obtain ⟨hf, rfl⟩ := derivedOk_iff.1 hr
    exact (passed hf).inc
  have hq := (phaseOk_iff.1 (lfoPhase_sound (drawNaN n) hp hi)).1
  refine ⟨d, hd, hlt, sampleEngine_ok.2 ⟨d, hd, ?_⟩⟩
  rw [spendDraw_of_not_nan (isNaN_of_isFinite hq)]
  exact sampleTail_ok.2 ⟨readIndex_lt (by omega), hw, rfl⟩

/-- One sample leaves a sound engine sound (R41, R106, R118). -/
theorem sampleEngine_keeps {c : EffectConfig} {r : Derived} {e : Engine} {n : Nat} {x : F} {q : Sampled}
    (hr : derivedOk c r = true) (he : engineOk r.cap e = true) (h : sampleEngine Config.params c r n e x = .ok q) :
    engineOk r.cap q.engine = true := by
  obtain ⟨d, -, -, hs⟩ := sampleEngine_sound n x hr he
  rw [hs] at h
  cases h
  simp only [engineOk, Bool.and_eq_true, decide_eq_true_eq] at he ⊢
  obtain ⟨⟨hm, hw⟩, hp⟩ := he
  obtain ⟨hf, rfl⟩ := derivedOk_iff.1 hr
  have p := passed hf
  exact ⟨⟨memWf_memWrite hm hw x, nextCursor_lt hw p.cap_le⟩, lfoPhase_sound _ hp p.inc⟩

end Sys2Proof.Laws
end

