-- ==== Sys2Proof/Laws/Block.lean ====
section
/-! SUPPORT. One sample and a block of samples on the state: everything they can do, what they leave alone, that
blocks compose, and that on a sound running state they always answer and leave a sound state. -/

namespace Sys2Proof.Laws

open Sys2Proof Sys2Proof.Machine

/-! ### Sound states -/

theorem sound_iff {s : State} : sound s = true ↔ derivedInv s = true ∧ engineInv s = true ∧ errorInv s = true := by
  simp [sound, and_assoc]

/-- The parts of a sound state in which the engine state exists. -/
theorem sound_parts {s : State} (h : sound s = true) (hl : holdsEngine s.lstate = true) :
    ∃ r e, s.derived = some r ∧ s.engine = some e ∧ derivedOk s.cfg r = true ∧ engineOk r.cap e = true := by
  obtain ⟨h1, h2, -⟩ := sound_iff.1 h
  unfold engineInv at h2
  unfold derivedInv at h1
  split at h2
  · simp [hl] at h2
  · next e he =>
    split at h1
    · next hd => simp [hd] at h2
    · next r hr =>
      simp only [hr, Bool.and_eq_true] at h1 h2
      exact ⟨r, e, hr, he, h1.2, h2.2⟩

/-- The derived registers of a sound state that holds them. -/
theorem sound_derived {s : State} (h : sound s = true) (hl : holdsDerived s.lstate = true) :
    ∃ r, s.derived = some r ∧ derivedOk s.cfg r = true := by
  obtain ⟨h1, -, -⟩ := sound_iff.1 h
  unfold derivedInv at h1
  split at h1
  · simp [hl] at h1
  · next r hr =>
    simp only [Bool.and_eq_true] at h1
    exact ⟨r, hr, h1.2⟩

/-! ### One sample -/

/-- Everything one sample can answer on the state. -/
theorem sampleOn_ok {s t : State} {x y : F} :
    sampleOn Config.params s x = .ok (y, t) ↔ ∃ r e q, s.derived = some r ∧ s.engine = some e ∧
      sampleEngine Config.params s.cfg r s.nanDraws e x = .ok q ∧ y = q.out ∧
      t = { s with engine := some q.engine, nanDraws := q.draws } := by
  unfold sampleOn
  constructor
  · intro h
    split at h
    · next r e hr he =>
      split at h
      · cases h
      · next q hq => cases h; exact ⟨r, e, q, hr, he, hq, rfl, rfl⟩
    · cases h
  · rintro ⟨r, e, q, hr, he, hq, rfl, rfl⟩
    simp only [hr, he, hq]

/-- One sample writes the engine state and the count of draws, and nothing else. -/
theorem sampleOn_frame {s t : State} {x y : F} (h : sampleOn Config.params s x = .ok (y, t)) :
    t = { s with engine := t.engine, nanDraws := t.nanDraws } := by
  obtain ⟨r, e, q, hr, he, hq, rfl, rfl⟩ := sampleOn_ok.1 h
  rfl

/-- One sample does not read the queue or the responses. -/
theorem sampleOn_congr {s t : State} {x y : F} (p : List HostEvent) (q : List Response)
    (h : sampleOn Config.params s x = .ok (y, t)) :
    sampleOn Config.params { s with pending := p, responses := q } x = .ok (y, { t with pending := p, responses := q }) := by
  obtain ⟨r, e, w, hr, he, hq, rfl, rfl⟩ := sampleOn_ok.1 h
  exact sampleOn_ok.2 ⟨r, e, w, hr, he, hq, rfl, rfl⟩

/-! ### A block -/

@[simp] theorem samplesOn_nil (s : State) : samplesOn Config.params s [] = .ok ([], s) := rfl

/-- A block is its first sample and then the rest. -/
theorem samplesOn_cons {s u : State} {x : F} {xs zs : List F} :
    samplesOn Config.params s (x :: xs) = .ok (zs, u) ↔ ∃ y t ys, sampleOn Config.params s x = .ok (y, t) ∧ samplesOn Config.params t xs = .ok (ys, u) ∧
      zs = y :: ys := by
  constructor
  · intro h
    unfold samplesOn at h
    split at h
    · cases h
    · next y t hy =>
      split at h
      · cases h
      · next ys v hv => cases h; exact ⟨y, t, ys, hy, hv, rfl⟩
  · rintro ⟨y, t, ys, hy, hv, rfl⟩
    simp only [samplesOn, hy, hv]

/-- A block of one sample. -/
theorem samplesOn_singleton {s t : State} {x y : F} (h : sampleOn Config.params s x = .ok (y, t)) :
    samplesOn Config.params s [x] = .ok ([y], t) := samplesOn_cons.2 ⟨y, t, [], h, rfl, rfl⟩

/-- A block writes the engine state and the count of draws and nothing else, and answers one output a sample. -/
theorem samplesOn_frame {xs : List F} : ∀ {s t : State} {ys : List F}, samplesOn Config.params s xs = .ok (ys, t) →
    t = { s with engine := t.engine, nanDraws := t.nanDraws } ∧ ys.length = xs.length := by
  induction xs with
  | nil => intro s t ys h; cases h; exact ⟨rfl, rfl⟩
  | cons x xs ih =>
    intro s t ys h
    obtain ⟨y, u, zs, h1, h2, rfl⟩ := samplesOn_cons.1 h
    have f1 := sampleOn_frame h1
    obtain ⟨f2, f3⟩ := ih h2
    refine ⟨?_, by simp [f3]⟩
    rw [f2, f1]

/-- The fields a block leaves as they were. -/
theorem samplesOn_fields {s t : State} {xs ys : List F} (h : samplesOn Config.params s xs = .ok (ys, t)) :
    t.cfg = s.cfg ∧ t.derived = s.derived ∧ t.lstate = s.lstate ∧ t.errCause = s.errCause ∧ t.pending = s.pending ∧
      t.responses = s.responses := by
  rw [(samplesOn_frame h).1]; simp

/-- The fields one sample leaves as they were. -/
theorem sampleOn_fields {s t : State} {x y : F} (h : sampleOn Config.params s x = .ok (y, t)) :
    t.cfg = s.cfg ∧ t.derived = s.derived ∧ t.lstate = s.lstate ∧ t.errCause = s.errCause ∧ t.pending = s.pending ∧
      t.responses = s.responses := samplesOn_fields (samplesOn_singleton h)

/-- Where one sample stores its input and where it leaves the cursor. -/
theorem sampleOn_buffer {s t : State} {x y : F} (h : sampleOn Config.params s x = .ok (y, t)) :
    ∃ r e e', s.derived = some r ∧ s.engine = some e ∧ t.engine = some e' ∧
      e'.dbuf = memWrite e.dbuf e.wcur x ∧ e'.wcur = nextCursor r.cap e.wcur := by
  obtain ⟨r, e, q, hr, he, hq, rfl, rfl⟩ := sampleOn_ok.1 h
  obtain ⟨d, -, hs⟩ := sampleEngine_ok.1 hq
  obtain ⟨-, -, rfl⟩ := sampleTail_ok.1 hs
  exact ⟨r, e, _, hr, he, rfl, rfl, rfl⟩

/-- Blocks compose: the samples of two blocks, one after the other, are the samples of the joined block (R134). -/
theorem samplesOn_append {xs ys : List F} : ∀ {s t u : State} {os ps : List F}, samplesOn Config.params s xs = .ok (os, t) →
    samplesOn Config.params t ys = .ok (ps, u) → samplesOn Config.params s (xs ++ ys) = .ok (os ++ ps, u) := by
  induction xs with
  | nil => intro s t u os ps h1 h2; cases h1; simpa using h2
  | cons x xs ih =>
    intro s t u os ps h1 h2
    obtain ⟨y, v, zs, h3, h4, rfl⟩ := samplesOn_cons.1 h1
    exact samplesOn_cons.2 ⟨y, v, zs ++ ps, h3, ih h4 h2, rfl⟩

/-- A block does not read the queue or the responses. -/
theorem samplesOn_congr {xs : List F} (p : List HostEvent) (q : List Response) : ∀ {s t : State} {ys : List F},
    samplesOn Config.params s xs = .ok (ys, t) →
    samplesOn Config.params { s with pending := p, responses := q } xs = .ok (ys, { t with pending := p, responses := q }) := by
  induction xs with
  | nil => intro s t ys h; cases h; rfl
  | cons x xs ih =>
    intro s t ys h
    obtain ⟨y, u, zs, h1, h2, rfl⟩ := samplesOn_cons.1 h
    exact samplesOn_cons.2 ⟨y, _, zs, sampleOn_congr p q h1, ih h2, rfl⟩

/-! ### On sound states -/

/-- One sample on a sound running state: it answers, by the formulas of R110. -/
theorem sampleOn_sound {s : State} (x : F) (h : sound s = true) (hl : s.lstate = .running) :
    ∃ r e d, s.derived = some r ∧ s.engine = some e ∧ nextDelay s.cfg r s.nanDraws e = .ok d ∧ d < r.cap ∧
      sampleOn Config.params s x = .ok (mix (drawNaN s.nanDraws) s.cfg x (memRead e.dbuf (readIndex r.cap e.wcur d)),
        { s with
          engine := some ⟨memWrite e.dbuf e.wcur x, nextCursor r.cap e.wcur,
            lfoPhase Config.params (drawNaN s.nanDraws) e.phase r.phaseInc⟩
          nanDraws := spendDraw s.nanDraws
            (mix (drawNaN s.nanDraws) s.cfg x (memRead e.dbuf (readIndex r.cap e.wcur d))) }) := by
  obtain ⟨r, e, hr, he, h1, h2⟩ := sound_parts h (by rw [hl]; rfl)
  obtain ⟨d, hd, hlt, hq⟩ := sampleEngine_sound s.nanDraws x h1 h2
  exact ⟨r, e, d, hr, he, hd, hlt, sampleOn_ok.2 ⟨r, e, _, hr, he, hq, rfl, rfl⟩⟩

/-- One sample keeps a running state sound. -/
theorem sampleOn_keeps {s t : State} {x y : F} (h : sound s = true) (hl : s.lstate = .running)
    (hq : sampleOn Config.params s x = .ok (y, t)) : sound t = true ∧ t.lstate = .running := by
  obtain ⟨r, e, hr, he, h1, h2⟩ := sound_parts h (by rw [hl]; rfl)
  obtain ⟨r', e', q, hr', he', hs, rfl, rfl⟩ := sampleOn_ok.1 hq
  rw [hr] at hr'
  rw [he] at he'
  cases hr'
  cases he'
  obtain ⟨-, -, herr⟩ := sound_iff.1 h
  have hk := sampleEngine_keeps h1 h2 hs
  refine ⟨sound_iff.2 ⟨?_, ?_, ?_⟩, hl⟩
  · simp [derivedInv, hr, hl, holdsDerived, h1]
  · simp [engineInv, hr, hl, holdsEngine, hk]
  · exact herr

/-- A block on a sound running state: it answers, with one output a sample, and leaves the state sound and running. -/
theorem samplesOn_sound (xs : List F) : ∀ {s : State}, sound s = true → s.lstate = .running →
    ∃ ys t, samplesOn Config.params s xs = .ok (ys, t) ∧ ys.length = xs.length ∧ sound t = true ∧ t.lstate = .running := by
  induction xs with
  | nil => intro s h hl; exact ⟨[], s, rfl, rfl, h, hl⟩
  | cons x xs ih =>
    intro s h hl
    obtain ⟨r, e, d, -, -, -, -, hs⟩ := sampleOn_sound x h hl
    obtain ⟨k1, k2⟩ := sampleOn_keeps h hl hs
    obtain ⟨ys, t, h1, h2, h3, h4⟩ := ih k1 k2
    exact ⟨_, t, samplesOn_cons.2 ⟨_, _, _, hs, h1, rfl⟩, by simp [h2], h3, h4⟩

end Sys2Proof.Laws
end

