-- ==== Sys2Proof/Laws/Decode.lean ====
section
/-! SUPPORT. The fields of a command word, the id tables, and what each row of the decoder can answer (R71, R75, R76,
R80). -/

namespace Sys2Proof.Laws

open Sys2Proof

/-! ### The fields at their widths: `N_W` is 24 -/

theorem opcOf_eq (w : CmdWord) : opcOf w = w.toNat / 2 ^ 24 := rfl

theorem argOf_eq (w : CmdWord) : argOf w = w.toNat % 2 ^ 24 := rfl

theorem cmdWord_eq (o a : Nat) : cmdWord o a = BitVec.ofNat 32 (o * 2 ^ 24 + a) := rfl

theorem blockLengthFits_iff {xs : List F} : blockLengthFits xs = true ↔ xs.length < 2 ^ 24 :=
  decide_eq_true_iff

/-- The fields of a command word whose `OPC` has at least the four bits the opcodes need, at any `N_W`. -/
theorem fields_cmdWord {nW o a : Nat} (hw : nW ≤ 28) (ho : o < 16) (ha : a < 2 ^ nW) :
    opcOf (cmdWord o a nW) nW = o ∧ argOf (cmdWord o a nW) nW = a := by
  have hp : 2 ^ nW ≤ 2 ^ 28 := Nat.pow_le_pow_right (by decide) hw
  have hlt : o * 2 ^ nW + a < 2 ^ 32 := by
    have : o * 2 ^ nW ≤ 15 * 2 ^ nW := Nat.mul_le_mul_right _ (by omega)
    omega
  have h : (cmdWord o a nW).toNat = o * 2 ^ nW + a := by
    rw [cmdWord, BitVec.toNat_ofNat, Nat.mod_eq_of_lt hlt]
  rw [opcOf, argOf, h]
  constructor
  · rw [Nat.add_comm, Nat.add_mul_div_right _ _ (by positivity), Nat.div_eq_of_lt ha, Nat.zero_add]
  · rw [Nat.mul_comm, Nat.mul_add_mod, Nat.mod_eq_of_lt ha]

theorem opcOf_cmdWord {o a : Nat} (ho : o < 2 ^ 8) (ha : a < 2 ^ 24) : opcOf (cmdWord o a) = o := by
  rw [opcOf_eq, cmdWord_eq, BitVec.toNat_ofNat]; omega

theorem argOf_cmdWord {o a : Nat} (ha : a < 2 ^ 24) : argOf (cmdWord o a) = a := by
  rw [argOf_eq, cmdWord_eq, BitVec.toNat_ofNat]; omega

theorem cmdWord_fields (w : CmdWord) : cmdWord (opcOf w) (argOf w) = w := by
  apply BitVec.eq_of_toNat_eq
  have := w.isLt
  rw [opcOf_eq, argOf_eq, cmdWord_eq, BitVec.toNat_ofNat]
  omega

theorem argOf_lt (w : CmdWord) : argOf w < 2 ^ 24 := Nat.mod_lt _ (by norm_num)

theorem idOfField_le (f : CfgField) : idOfField f ≤ 5 := by cases f <;> decide

theorem idOfReg_le (r : RegName) : idOfReg r ≤ 13 := by
  cases r with
  | cfg f => cases f <;> decide
  | _ => decide

@[simp] theorem fieldOfId_idOfField (f : CfgField) : fieldOfId (idOfField f) = some f := by cases f <;> rfl

@[simp] theorem regOfId_idOfReg (r : RegName) : regOfId (idOfReg r) = some r := by
  cases r with
  | cfg f => cases f <;> rfl
  | _ => rfl

/-- The ids that name a config field (R75). -/
theorem fieldOfId_eq_some {n : Nat} {f : CfgField} : fieldOfId n = some f ↔ n = idOfField f := by
  constructor
  · intro h
    unfold fieldOfId at h
    split at h <;> cases h <;> rfl
  · rintro rfl; exact fieldOfId_idOfField f

theorem fieldOfId_eq_none {n : Nat} : fieldOfId n = none ↔ 5 < n := by
  constructor
  · intro h
    by_contra hc
    have hn : n < 6 := by omega
    interval_cases n <;> simp [fieldOfId] at h
  · intro h
    unfold fieldOfId
    split <;> first | omega | rfl

/-- The ids that name a register (R37). -/
theorem regOfId_eq_some {n : Nat} {r : RegName} : regOfId n = some r ↔ n = idOfReg r := by
  constructor
  · intro h
    unfold regOfId at h
    split at h
    all_goals first
      | (cases h; rfl)
      | (rw [Option.map_eq_some_iff] at h
         obtain ⟨f, hf, rfl⟩ := h
         exact fieldOfId_eq_some.1 hf)
  · rintro rfl; exact regOfId_idOfReg r

theorem regOfId_eq_none {n : Nat} : regOfId n = none ↔ n = 6 ∨ n = 7 ∨ 13 < n := by
  constructor
  · intro h
    by_contra hc
    have hn : n < 14 := by omega
    interval_cases n <;> simp [regOfId, fieldOfId] at h hc
  · intro h
    unfold regOfId
    split
    all_goals first
      | omega
      | (rw [Option.map_eq_none_iff, fieldOfId_eq_none]; omega)

/-- What a must-be-zero row can answer. -/
theorem decodePlain_ok {i j : Instr} {a : Nat} {d : List DataWord} :
    decodePlain i a d = .ok j ↔ a = 0 ∧ d = [] ∧ j = i := by
  unfold decodePlain
  by_cases h : a = 0 <;> cases d <;> simp [h, eq_comm]

theorem decodeCfgWr_ok {i : Instr} {a : Nat} {d : List DataWord} :
    decodeCfgWr a d = .ok i ↔ ∃ f v, a = idOfField f ∧ d = [v] ∧ i = .cfgWr f v := by
  unfold decodeCfgWr
  split
  · next h =>
    constructor
    · intro hc; cases hc
    · rintro ⟨f, v, rfl, -, -⟩
      rw [fieldOfId_idOfField] at h
      cases h
  · next f h =>
    rw [fieldOfId_eq_some] at h
    subst h
    constructor
    · intro hc
      split at hc
      · next v => cases hc; exact ⟨f, v, rfl, rfl, rfl⟩
      · cases hc
    · rintro ⟨g, v, hg, rfl, rfl⟩
      have : f = g := by
        have := fieldOfId_idOfField f
        rw [hg, fieldOfId_idOfField] at this
        exact (Option.some.inj this).symm
      rw [this]

theorem decodeStep_ok {i : Instr} {a : Nat} {d : List DataWord} :
    decodeStep a d = .ok i ↔ ∃ x, a = 0 ∧ d = [x] ∧ i = .step x := by
  unfold decodeStep
  split
  · next h =>
    constructor
    · intro hc; cases hc
    · rintro ⟨x, h0, -⟩; exact absurd h0 h
  · next h =>
    constructor
    · intro hc
      split at hc
      · next x => cases hc; exact ⟨x, by omega, rfl, rfl⟩
      · cases hc
    · rintro ⟨x, h0, rfl, rfl⟩; rfl

theorem decodeBlock_ok {i : Instr} {a : Nat} {d : List DataWord} :
    decodeBlock a d = .ok i ↔ d.length = a ∧ i = .block d := by
  unfold decodeBlock
  split
  · next h => simp [h, eq_comm]
  · next h => simp [h]

theorem decodeRd_ok {i : Instr} {a : Nat} {d : List DataWord} :
    decodeRd a d = .ok i ↔ ∃ r, a = idOfReg r ∧ d = [] ∧ i = .rd r := by
  unfold decodeRd
  split
  · next h =>
    constructor
    · intro hc; cases hc
    · rintro ⟨r, rfl, -, -⟩
      rw [regOfId_idOfReg] at h
      cases h
  · next r h =>
    rw [regOfId_eq_some] at h
    subst h
    constructor
    · intro hc
      split at hc
      · next hd => cases hc; exact ⟨r, rfl, by simpa using hd, rfl⟩
      · cases hc
    · rintro ⟨q, hq, rfl, rfl⟩
      have : r = q := by
        have := regOfId_idOfReg r
        rw [hq, regOfId_idOfReg] at this
        exact (Option.some.inj this).symm
      simp [this]

/-- Which row of the opcode map a transaction is read by (R74). -/
theorem decode_ok {nW : Nat} {w : CmdWord} {d : List DataWord} {i : Instr} :
    decode w d nW = .ok i ↔
      (opcOf w nW = 0x01 ∧ decodeCfgWr (argOf w nW) d = .ok i) ∨ (opcOf w nW = 0x02 ∧ decodePlain .cfgCommit (argOf w nW) d = .ok i) ∨
      (opcOf w nW = 0x03 ∧ decodePlain .openStream (argOf w nW) d = .ok i) ∨
      (opcOf w nW = 0x04 ∧ decodePlain .startStream (argOf w nW) d = .ok i) ∨
      (opcOf w nW = 0x05 ∧ decodeStep (argOf w nW) d = .ok i) ∨ (opcOf w nW = 0x06 ∧ decodeBlock (argOf w nW) d = .ok i) ∨
      (opcOf w nW = 0x07 ∧ decodePlain .stopStream (argOf w nW) d = .ok i) ∨
      (opcOf w nW = 0x08 ∧ decodePlain .closeStream (argOf w nW) d = .ok i) ∨
      (opcOf w nW = 0x09 ∧ decodeRd (argOf w nW) d = .ok i) := by
  unfold decode
  split
  all_goals simp_all

/-- The transactions that spell a command, by their fields (R74, R78, R79). -/
theorem decode_isOk {w : CmdWord} {d : List DataWord} : (∃ i, decode w d = .ok i) ↔
    (opcOf w = 1 ∧ argOf w ≤ 5 ∧ d.length = 1) ∨
    ((opcOf w = 2 ∨ opcOf w = 3 ∨ opcOf w = 4 ∨ opcOf w = 7 ∨ opcOf w = 8) ∧ argOf w = 0 ∧ d.length = 0) ∨
    (opcOf w = 5 ∧ argOf w = 0 ∧ d.length = 1) ∨ (opcOf w = 6 ∧ d.length = argOf w) ∨
    (opcOf w = 9 ∧ argOf w ≠ 6 ∧ argOf w ≠ 7 ∧ argOf w ≤ 13 ∧ d.length = 0) := by
  simp only [decode_ok, decodeCfgWr_ok, decodePlain_ok, decodeStep_ok, decodeBlock_ok, decodeRd_ok]
  constructor
  · rintro ⟨i, h⟩
    rcases h with ⟨ho, f, v, ha, rfl, rfl⟩ | ⟨ho, ha, rfl, rfl⟩ | ⟨ho, ha, rfl, rfl⟩ | ⟨ho, ha, rfl, rfl⟩ |
      ⟨ho, x, ha, rfl, rfl⟩ | ⟨ho, ha, rfl⟩ | ⟨ho, ha, rfl, rfl⟩ | ⟨ho, ha, rfl, rfl⟩ | ⟨ho, r, ha, rfl, rfl⟩
    · have := idOfField_le f; simp [ho]; omega
    · simp [ho, ha]
    · simp [ho, ha]
    · simp [ho, ha]
    · simp [ho, ha]
    · simp [ho, ha]
    · simp [ho, ha]
    · simp [ho, ha]
    · have := idOfReg_le r
      have h : ¬ (argOf w = 6 ∨ argOf w = 7 ∨ 13 < argOf w) := by
        rw [← regOfId_eq_none, ha, regOfId_idOfReg]; simp
      simp [ho]; omega
  · rintro (⟨ho, ha, hd⟩ | ⟨ho, ha, hd⟩ | ⟨ho, ha, hd⟩ | ⟨ho, hd⟩ | ⟨ho, h1, h2, h3, hd⟩)
    · obtain ⟨v, rfl⟩ := List.length_eq_one_iff.1 hd
      rcases hf : fieldOfId (argOf w) with _ | f
      · rw [fieldOfId_eq_none] at hf; omega
      · exact ⟨_, .inl ⟨ho, f, v, fieldOfId_eq_some.1 hf, rfl, rfl⟩⟩
    · have hd := List.length_eq_zero_iff.1 hd
      rcases ho with ho | ho | ho | ho | ho <;> simp [ho, ha, hd]
    · obtain ⟨v, rfl⟩ := List.length_eq_one_iff.1 hd
      simp [ho, ha]
    · simp [ho, hd]
    · have hd := List.length_eq_zero_iff.1 hd
      rcases hf : regOfId (argOf w) with _ | f
      · rw [regOfId_eq_none] at hf; omega
      · exact ⟨.rd f, by simp [ho, hd, ← regOfId_eq_some, hf]⟩

end Sys2Proof.Laws
end

