-- ==== Sys2Proof/Laws/History.lean ====
section
/-! SUPPORT. The buffer seen from the cursor: what one sample and a block do to `history`, and that a tap is a word of
it (R65, R66, R121, R122). -/

namespace Sys2Proof.Laws

open Sys2Proof Sys2Proof.Machine

/-- Two indices `k` and `j` places behind a cursor are equal only when `k = j`, for `k`, `j` in `[1, CAP]`. -/
theorem behind_inj {cap w k j : Nat} (hk : 1 ≤ k) (hk' : k ≤ cap) (hj : 1 ≤ j) (hj' : j ≤ cap)
    (h : (w + cap - k) % cap = (w + cap - j) % cap) : k = j := by
  rcases Nat.eq_zero_or_pos cap with h0 | h0
  · omega
  · have h1 : (w + cap - k) ≡ (w + cap - j) [MOD cap] := h
    rcases le_total k j with hkj | hkj
    · have h2 := (Nat.modEq_iff_dvd' (show w + cap - j ≤ w + cap - k by omega)).1 h1.symm
      have : w + cap - k - (w + cap - j) = j - k := by omega
      rw [this] at h2
      rcases Nat.eq_zero_or_pos (j - k) with h3 | h3
      · omega
      · have := Nat.le_of_dvd h3 h2; omega
    · have h2 := (Nat.modEq_iff_dvd' (show w + cap - k ≤ w + cap - j by omega)).1 h1
      have : w + cap - j - (w + cap - k) = k - j := by omega
      rw [this] at h2
      rcases Nat.eq_zero_or_pos (k - j) with h3 | h3
      · omega
      · have := Nat.le_of_dvd h3 h2; omega

/-- One place behind the next cursor is the cursor. -/
theorem behind_next_one {cap w : Nat} (hw : w < cap) : ((w + 1) % cap + cap - 1) % cap = w := by
  rcases Nat.lt_or_ge (w + 1) cap with h | h
  · rw [Nat.mod_eq_of_lt h, show w + 1 + cap - 1 = w + cap by omega, Nat.add_mod_right, Nat.mod_eq_of_lt hw]
  · have : w + 1 = cap := by omega
    rw [this, Nat.mod_self, Nat.mod_eq_of_lt (by omega)]
    omega

/-- One place more behind the next cursor is the same place behind the cursor. -/
theorem behind_next_succ {cap w k : Nat} (hw : w < cap) (hk' : k < cap) :
    ((w + 1) % cap + cap - (k + 1)) % cap = (w + cap - k) % cap := by
  rcases Nat.lt_or_ge (w + 1) cap with h | h
  · rw [Nat.mod_eq_of_lt h]
    congr 1
    omega
  · have : w + 1 = cap := le_antisymm hw h
    rw [this, Nat.mod_self, Nat.mod_eq_of_lt (by omega), show w + cap - k = (0 + cap - (k + 1)) + cap by omega,
      Nat.add_mod_right, Nat.mod_eq_of_lt (by omega)]

/-- What one sample does to the history: the input is one place behind, everything else one place further (R117,
R118). -/
theorem history_sample {cap : Nat} {e : Engine} {x ph : F} (hm : memWf cap e.dbuf = true) (hw : e.wcur < cap)
    (hc : cap ≤ 65536) :
    history cap ⟨memWrite e.dbuf e.wcur x, nextCursor cap e.wcur, ph⟩ 1 = x ∧
      ∀ k, 1 ≤ k → k < cap →
        history cap ⟨memWrite e.dbuf e.wcur x, nextCursor cap e.wcur, ph⟩ (k + 1) = history cap e k := by
  unfold history
  simp only [nextCursor_eq hw hc]
  refine ⟨?_, fun k hk hk' => ?_⟩
  · rw [behind_next_one hw]
    exact memRead_memWrite_same hm _ _
  · rw [behind_next_succ hw hk']
    refine memRead_memWrite_ne _ _ fun he => ?_
    have h0 : (e.wcur + cap - cap) % cap = e.wcur := by
      rw [Nat.add_sub_cancel]; exact Nat.mod_eq_of_lt hw
    have := behind_inj hk hk'.le (by omega) le_rfl (he.trans h0.symm)
    omega

/-- The tap of delay `d` is `d` places behind the cursor, and of delay 0 the oldest word (R115, R121). -/
theorem tap_eq_history (cap d : Nat) (e : Engine) :
    memRead e.dbuf (readIndex cap e.wcur d) = history cap e (if d = 0 then cap else d) := by
  unfold history readIndex
  split
  · next h =>
    subst h
    rw [Nat.add_sub_cancel, Nat.sub_zero, Nat.add_mod_right]
  · rfl

/-- What a block of samples leaves of a sound running state: the derived registers and configuration as they were, the
cursor moved on by the number of samples, the last samples in the history and before them the older history (R65). -/
theorem history_block (xs : List F) : ∀ {s t : State} {ys : List F} {r : Derived} {e : Engine}, sound s = true →
    s.lstate = .running → s.derived = some r → s.engine = some e → samplesOn Config.params s xs = .ok (ys, t) →
    ∃ e', t.engine = some e' ∧ engineOk r.cap e' = true ∧
      e'.wcur = (e.wcur + xs.length) % r.cap ∧
      ∀ k, 1 ≤ k → k ≤ r.cap → history r.cap e' k =
        if k ≤ xs.length then xs.getD (xs.length - k) posZero else history r.cap e (k - xs.length) := by
  induction xs with
  | nil =>
    intro s t ys r e hs hl hr he h
    cases h
    obtain ⟨r', e', hr', he', -, h2⟩ := sound_parts hs (by rw [hl]; rfl)
    rw [hr] at hr'
    rw [he] at he'
    cases hr'
    cases he'
    have hw : e.wcur < r.cap := by
      simp only [engineOk, Bool.and_eq_true, decide_eq_true_eq] at h2
      exact h2.1.2
    refine ⟨e, he, h2, by simp [Nat.mod_eq_of_lt hw], fun k hk hk' => ?_⟩
    rw [if_neg (by simp; omega)]
    simp
  | cons x xs ih =>
    intro s t ys r e hs hl hr he h
    obtain ⟨y, u, zs, h1, h2, rfl⟩ := samplesOn_cons.1 h
    obtain ⟨k1, k2⟩ := sampleOn_keeps hs hl h1
    obtain ⟨r', e', hr', he', o1, o2⟩ := sound_parts hs (by rw [hl]; rfl)
    rw [hr] at hr'
    rw [he] at he'
    cases hr'
    cases he'
    obtain ⟨r', e', d, hr', he', hd, hlt, hq⟩ := sampleOn_sound x hs hl
    rw [hr] at hr'
    rw [he] at he'
    cases hr'
    cases he'
    rw [hq] at h1
    cases h1
    have hcap := (cap_bounds o1).2
    simp only [engineOk, Bool.and_eq_true, decide_eq_true_eq] at o2
    obtain ⟨e', he', q1, q2, q3⟩ := ih k1 k2 hr rfl h2
    obtain ⟨b1, b2⟩ := history_sample (x := x) (ph := lfoPhase Config.params (drawNaN s.nanDraws) e.phase r.phaseInc)
      o2.1.1 o2.1.2 hcap
    refine ⟨e', he', q1, ?_, fun k hk hk' => ?_⟩
    · rw [q2, nextCursor_eq o2.1.2 hcap, Nat.mod_add_mod, List.length_cons]
      congr 1
      omega
    · rw [q3 k hk hk']
      rcases Nat.lt_trichotomy k (xs.length + 1) with h3 | h3 | h3
      · rw [if_pos (by omega), if_pos (by simp; omega)]
        have : (x :: xs).length - k = (xs.length - k) + 1 := by simp; omega
        rw [this, List.getD_cons_succ]
      · rw [if_neg (by omega), if_pos (by simp; omega)]
        have e1 : k - xs.length = 1 := by omega
        have e2 : (x :: xs).length - k = 0 := by simp; omega
        rw [e1, e2, List.getD_cons_zero]
        exact b1
      · rw [if_neg (by omega), if_neg (by simp; omega)]
        have e1 : k - xs.length = (k - (x :: xs).length) + 1 := by simp; omega
        rw [e1]
        exact b2 _ (by simp; omega) (by omega)

end Sys2Proof.Laws
end

