-- ==== Sys2Proof/Laws/Exec.lean ====
section
/-! SUPPORT. Everything each command can answer (one inversion lemma per meaning), and that each keeps a sound state
sound. -/

namespace Sys2Proof.Laws

open Sys2Proof Sys2Proof.Machine

/-! ### At the spec's parameters -/

/-- CFG_COMMIT, in binary64. -/
theorem execCfgCommit_eq (s : State) : execCfgCommit s =
    if s.lstate = .idle then
      if firstFailing Config.params (drawNaN s.nanDraws) s.cfg = .none then
        respond { s with derived := some (deriveFrom Config.params (drawNaN s.nanDraws) s.cfg), lstate := .configured }
          []
      else raiseConfigError s (firstFailing Config.params (drawNaN s.nanDraws) s.cfg)
    else reject s .estate := rfl

/-- Taking the host's next event, with the block length of 24 bits. -/
theorem fetch_eq (s : State) : fetch Config.params s =
    match s.pending with
    | [] => .nothing
    | .reset :: rest => .reset { s with pending := rest }
    | .command w d :: rest =>
      match decode w d with
      | .ok i => .command { s with pending := rest } i
      | .error e => .illegal { s with pending := rest } e := rfl

/-! ### What each command can answer -/

theorem execCfgWr_next {f : CfgField} {v : DataWord} {s t : State} (h : execCfgWr f v s = .next t) :
    (s.lstate = .idle ∧ t = ({ s with cfg := setField s.cfg f v } : State).answer .ok []) ∨
      (s.lstate ≠ .idle ∧ t = s.answer .estate []) := by
  unfold execCfgWr at h
  split at h
  · next hl => exact .inl ⟨hl, respond_next h⟩
  · next hl => exact .inr ⟨hl, reject_next h⟩

theorem execCfgCommit_next {s t : State} (h : execCfgCommit s = .next t) :
    (s.lstate = .idle ∧ firstFailing Config.params (drawNaN s.nanDraws) s.cfg = .none ∧
        t = ({ s with derived := some (deriveFrom Config.params (drawNaN s.nanDraws) s.cfg), lstate := .configured } : State).answer
          .ok []) ∨
      (s.lstate = .idle ∧ firstFailing Config.params (drawNaN s.nanDraws) s.cfg ≠ .none ∧
        t = ({ s with errCause := firstFailing Config.params (drawNaN s.nanDraws) s.cfg, lstate := .error } : State).answer
          .ecfg []) ∨
      (s.lstate ≠ .idle ∧ t = s.answer .estate []) := by
  rw [execCfgCommit_eq] at h
  split at h
  · next hl =>
    split at h
    · next hf => exact .inl ⟨hl, hf, respond_next h⟩
    · next hf => exact .inr (.inl ⟨hl, hf, raiseConfigError_next h⟩)
  · next hl => exact .inr (.inr ⟨hl, reject_next h⟩)

theorem execOpen_next {s t : State} (h : execOpen s = .next t) :
    (s.lstate = .configured ∧ s.derived ≠ none ∧
        t = ({ s with engine := some openedEngine, lstate := .ready } : State).answer .ok []) ∨
      (s.lstate ≠ .configured ∧ t = s.answer .estate []) := by
  unfold execOpen at h
  split at h
  · next hl =>
    split at h
    · next r hr => exact .inl ⟨hl, by simp [hr], respond_next h⟩
    · cases h
  · next hl => exact .inr ⟨hl, reject_next h⟩

theorem execStart_next {s t : State} (h : execStart s = .next t) :
    (s.lstate = .ready ∧ t = ({ s with lstate := .running } : State).answer .ok []) ∨
      (s.lstate ≠ .ready ∧ t = s.answer .estate []) := by
  unfold execStart at h
  split at h
  · next hl => exact .inl ⟨hl, respond_next h⟩
  · next hl => exact .inr ⟨hl, reject_next h⟩

theorem execStop_next {s t : State} (h : execStop s = .next t) :
    (s.lstate = .running ∧ t = ({ s with lstate := .stopped } : State).answer .ok []) ∨
      (s.lstate ≠ .running ∧ t = s.answer .estate []) := by
  unfold execStop at h
  split at h
  · next hl => exact .inl ⟨hl, respond_next h⟩
  · next hl => exact .inr ⟨hl, reject_next h⟩

theorem execClose_next {s t : State} (h : execClose s = .next t) :
    ((s.lstate = .ready ∨ s.lstate = .stopped) ∧
        t = ({ s with engine := none, lstate := .closed } : State).answer .ok []) ∨
      (¬ (s.lstate = .ready ∨ s.lstate = .stopped) ∧ t = s.answer .estate []) := by
  unfold execClose at h
  split at h
  · next hl => exact .inl ⟨hl, respond_next h⟩
  · next hl => exact .inr ⟨hl, reject_next h⟩

theorem execRd_next {r : RegName} {s t : State} (h : execRd r s = .next t) :
    (regAdmitted s.lstate r = true ∧ ∃ v, regValue s r = .ok v ∧ t = s.answer .ok [v]) ∨
      (regAdmitted s.lstate r = false ∧ t = s.answer .estate []) := by
  unfold execRd at h
  split at h
  · next hl =>
    split at h
    · cases h
    · next v hv => exact .inl ⟨hl, v, hv, respond_next h⟩
  · next hl => exact .inr ⟨by simpa using hl, reject_next h⟩

theorem execStep_next {x : F} {s t : State} (h : execStep x s = .next t) :
    (s.lstate = .running ∧ ∃ y u, sampleOn Config.params s x = .ok (y, u) ∧ t = u.answer .ok [y]) ∨
      (s.lstate ≠ .running ∧ t = s.answer .estate []) := by
  unfold execStep stepWith at h
  split at h
  · next hl =>
    split at h
    · cases h
    · next y u hu => exact .inl ⟨hl, y, u, hu, respond_next h⟩
  · next hl => exact .inr ⟨hl, reject_next h⟩

theorem execBlock_next {xs : List F} {s t : State} (h : execBlock xs s = .next t) :
    (s.lstate = .running ∧ ∃ ys u, samplesOn Config.params s xs = .ok (ys, u) ∧ t = u.answer .ok ys) ∨
      (s.lstate ≠ .running ∧ t = s.answer .estate []) := by
  unfold execBlock blockWith at h
  split at h
  · next hl =>
    split at h
    · cases h
    · next ys u hu => exact .inl ⟨hl, ys, u, hu, respond_next h⟩
  · next hl => exact .inr ⟨hl, reject_next h⟩

/-- A running STEP whose sample answers. -/
theorem execStep_running {x y : F} {s u : State} (hl : s.lstate = .running) (h : sampleOn Config.params s x = .ok (y, u)) :
    execStep x s = .next (u.answer .ok [y]) := by
  unfold execStep stepWith; rw [if_pos hl, h]; rfl

/-- A running BLOCK whose samples answer. -/
theorem execBlock_running {xs ys : List F} {s u : State} (hl : s.lstate = .running)
    (h : samplesOn Config.params s xs = .ok (ys, u)) : execBlock xs s = .next (u.answer .ok ys) := by
  unfold execBlock blockWith; rw [if_pos hl, h]; rfl

/-- Everything a command can do to the lifecycle, the queue and the responses: it is rejected, it completes, or it is
CFG_COMMIT with a configuration error. -/
theorem exec_next {i : Instr} {s t : State} (h : exec i s = .next t) :
    (admitted i s.lstate = false ∧ t = s.answer .estate []) ∨
    (admitted i s.lstate = true ∧ t.lstate = lifecycleAfter s.lstate i ∧ t.pending = s.pending ∧
      ∃ d, t.responses = s.responses ++ [⟨.ok, d⟩] ∧ d.length = outCount i) ∨
    (s.lstate = .idle ∧ i = .cfgCommit ∧ t.lstate = .error ∧ t.pending = s.pending ∧
      t.responses = s.responses ++ [⟨.ecfg, []⟩] ∧ t.cfg = s.cfg ∧ t.derived = s.derived ∧ t.engine = s.engine) := by
  cases i with
  | cfgWr f v =>
    rcases execCfgWr_next h with ⟨hl, rfl⟩ | ⟨hl, rfl⟩ <;> simp [admitted, hl, lifecycleAfter, outCount]
  | cfgCommit =>
    rcases execCfgCommit_next h with ⟨hl, hf, rfl⟩ | ⟨hl, hf, rfl⟩ | ⟨hl, rfl⟩ <;> simp [admitted, hl, lifecycleAfter, outCount]
  | openStream =>
    rcases execOpen_next h with ⟨hl, -, rfl⟩ | ⟨hl, rfl⟩ <;> simp [admitted, hl, lifecycleAfter, outCount]
  | startStream =>
    rcases execStart_next h with ⟨hl, rfl⟩ | ⟨hl, rfl⟩ <;> simp [admitted, hl, lifecycleAfter, outCount]
  | stopStream =>
    rcases execStop_next h with ⟨hl, rfl⟩ | ⟨hl, rfl⟩ <;> simp [admitted, hl, lifecycleAfter, outCount]
  | closeStream =>
    rcases execClose_next h with ⟨hl, rfl⟩ | ⟨hl, rfl⟩
    · rcases hl with hl | hl <;> simp [admitted, hl, lifecycleAfter, outCount]
    · simp [admitted]; tauto
  | step x =>
    rcases execStep_next h with ⟨hl, y, u, hu, rfl⟩ | ⟨hl, rfl⟩
    · obtain ⟨-, -, h3, -, h5, h6⟩ := sampleOn_fields hu
      simp [admitted, hl, lifecycleAfter, outCount, h3, h5, h6]
    · simp [admitted, hl]
  | block xs =>
    rcases execBlock_next h with ⟨hl, y, u, hu, rfl⟩ | ⟨hl, rfl⟩
    · obtain ⟨-, -, h3, -, h5, h6⟩ := samplesOn_fields hu
      simp [admitted, hl, lifecycleAfter, outCount, h3, h5, h6, (samplesOn_frame hu).2]
    · simp [admitted, hl]
  | rd r =>
    rcases execRd_next h with ⟨hl, v, hv, rfl⟩ | ⟨hl, rfl⟩ <;> simp [admitted, hl, lifecycleAfter, outCount]

/-- A command takes nothing from the queue and appends one response. -/
theorem exec_pending {i : Instr} {s t : State} (h : exec i s = .next t) :
    t.pending = s.pending ∧ ∃ r, t.responses = s.responses ++ [r] := by
  rcases exec_next h with ⟨-, rfl⟩ | ⟨-, -, h1, d, h2, -⟩ | ⟨-, -, -, h1, h2, -⟩
  · exact ⟨rfl, _, rfl⟩
  · exact ⟨h1, _, h2⟩
  · exact ⟨h1, _, h2⟩

/-! ### Sound states -/

theorem sound_answer {s : State} (st : Status) (d : List DataWord) : sound (s.answer st d) = sound s := rfl

theorem sound_reset (p : List HostEvent) (q : List Response) (n : Nat) :
    sound { State.reset with pending := p, responses := q, nanDraws := n } = true := rfl

/-- The queue, the responses and the draws are not part of what makes a state sound. -/
theorem sound_host (s : State) (p : List HostEvent) (q : List Response) (n : Nat) :
    sound { s with pending := p, responses := q, nanDraws := n } = sound s := rfl

theorem sound_withoutEngine {s : State} (h : sound s = true) (hl : holdsEngine s.lstate = false) : s.engine = none := by
  obtain ⟨-, h2, -⟩ := sound_iff.1 h
  unfold engineInv at h2
  split at h2
  · next h => exact h
  · simp [hl] at h2

theorem sound_withoutDerived {s : State} (h : sound s = true) (hl : holdsDerived s.lstate = false) :
    s.derived = none := by
  obtain ⟨h1, -, -⟩ := sound_iff.1 h
  unfold derivedInv at h1
  split at h1
  · next h => exact h
  · simp [hl] at h1

theorem sound_errCause {s : State} (h : sound s = true) : s.errCause = .none ↔ s.lstate ≠ .error := by
  obtain ⟨-, -, h3⟩ := sound_iff.1 h
  unfold errorInv at h3
  by_cases a : s.errCause = .none <;> by_cases b : s.lstate = .error <;> simp_all

theorem execCfgWr_keeps {f : CfgField} {v : DataWord} {s t : State} (hs : sound s = true)
    (h : execCfgWr f v s = .next t) : sound t = true := by
  rcases execCfgWr_next h with ⟨hl, rfl⟩ | ⟨-, rfl⟩
  · have h1 := sound_withoutDerived hs (by rw [hl]; rfl)
    have h2 := sound_withoutEngine hs (by rw [hl]; rfl)
    have h3 := (sound_errCause hs).2 (by rw [hl]; decide)
    rw [sound_answer, sound_iff]
    simp [derivedInv, engineInv, errorInv, h1, h2, h3, hl, holdsDerived, holdsEngine]
  · rwa [sound_answer]

theorem execCfgCommit_keeps {s t : State} (hs : sound s = true) (h : execCfgCommit s = .next t) : sound t = true := by
  rcases execCfgCommit_next h with ⟨hl, hf, rfl⟩ | ⟨hl, hf, rfl⟩ | ⟨-, rfl⟩
  · have h2 := sound_withoutEngine hs (by rw [hl]; rfl)
    have h3 := (sound_errCause hs).2 (by rw [hl]; decide)
    rw [sound_answer, sound_iff]
    simp [derivedInv, engineInv, errorInv, h2, h3, holdsDerived, holdsEngine, derivedOk_deriveFrom hf]
  · have h1 := sound_withoutDerived hs (by rw [hl]; rfl)
    have h2 := sound_withoutEngine hs (by rw [hl]; rfl)
    rw [sound_answer, sound_iff]
    simp [derivedInv, engineInv, errorInv, h1, h2, hf, holdsDerived, holdsEngine]
  · rwa [sound_answer]

theorem execOpen_keeps {s t : State} (hs : sound s = true) (h : execOpen s = .next t) : sound t = true := by
  rcases execOpen_next h with ⟨hl, -, rfl⟩ | ⟨-, rfl⟩
  · obtain ⟨r, hr, hok⟩ := sound_derived hs (by rw [hl]; rfl)
    have h3 := (sound_errCause hs).2 (by rw [hl]; decide)
    have hw : engineOk r.cap openedEngine = true := by
      have := (cap_bounds hok).1
      simp [engineOk, openedEngine, this]
    rw [sound_answer, sound_iff]
    simp [derivedInv, engineInv, errorInv, hr, h3, hok, hw, holdsDerived, holdsEngine]
  · rwa [sound_answer]

theorem execStart_keeps {s t : State} (hs : sound s = true) (h : execStart s = .next t) : sound t = true := by
  rcases execStart_next h with ⟨hl, rfl⟩ | ⟨-, rfl⟩
  · obtain ⟨r, e, hr, he, h1, h2⟩ := sound_parts hs (by rw [hl]; rfl)
    have h3 := (sound_errCause hs).2 (by rw [hl]; decide)
    rw [sound_answer, sound_iff]
    simp [derivedInv, engineInv, errorInv, hr, he, h1, h2, h3, holdsDerived, holdsEngine]
  · rwa [sound_answer]

theorem execStop_keeps {s t : State} (hs : sound s = true) (h : execStop s = .next t) : sound t = true := by
  rcases execStop_next h with ⟨hl, rfl⟩ | ⟨-, rfl⟩
  · obtain ⟨r, e, hr, he, h1, h2⟩ := sound_parts hs (by rw [hl]; rfl)
    have h3 := (sound_errCause hs).2 (by rw [hl]; decide)
    rw [sound_answer, sound_iff]
    simp [derivedInv, engineInv, errorInv, hr, he, h1, h2, h3, holdsDerived, holdsEngine]
  · rwa [sound_answer]

theorem execClose_keeps {s t : State} (hs : sound s = true) (h : execClose s = .next t) : sound t = true := by
  rcases execClose_next h with ⟨hl, rfl⟩ | ⟨-, rfl⟩
  · obtain ⟨r, hr, h1⟩ := sound_derived hs (by rcases hl with hl | hl <;> rw [hl] <;> rfl)
    have h3 := (sound_errCause hs).2 (by rcases hl with hl | hl <;> rw [hl] <;> decide)
    rw [sound_answer, sound_iff]
    simp [derivedInv, engineInv, errorInv, hr, h1, h3, holdsDerived, holdsEngine]
  · rwa [sound_answer]

theorem execRd_keeps {r : RegName} {s t : State} (hs : sound s = true) (h : execRd r s = .next t) : sound t = true := by
  rcases execRd_next h with ⟨-, v, -, rfl⟩ | ⟨-, rfl⟩ <;> rwa [sound_answer]

theorem execStep_keeps {x : F} {s t : State} (hs : sound s = true) (h : execStep x s = .next t) : sound t = true := by
  rcases execStep_next h with ⟨hl, y, u, hu, rfl⟩ | ⟨-, rfl⟩
  · rw [sound_answer]; exact (sampleOn_keeps hs hl hu).1
  · rwa [sound_answer]

theorem execBlock_keeps {xs : List F} {s t : State} (hs : sound s = true) (h : execBlock xs s = .next t) :
    sound t = true := by
  rcases execBlock_next h with ⟨hl, ys, u, hu, rfl⟩ | ⟨-, rfl⟩
  · obtain ⟨zs, v, hv, -, h1, -⟩ := samplesOn_sound xs hs hl
    rw [hv] at hu
    cases hu
    rwa [sound_answer]
  · rwa [sound_answer]

/-- A register that RD admits holds a value in a sound state. -/
theorem regValue_sound {s : State} {r : RegName} (hs : sound s = true) (h : regAdmitted s.lstate r = true) :
    ∃ v, regValue s r = .ok v := by
  cases r with
  | cfg f => exact ⟨_, rfl⟩
  | lstate => exact ⟨_, rfl⟩
  | errCause => exact ⟨_, rfl⟩
  | cap => obtain ⟨d, hd, -⟩ := sound_derived hs h; exact ⟨_, by simp only [regValue, hd]; rfl⟩
  | phaseInc => obtain ⟨d, hd, -⟩ := sound_derived hs h; exact ⟨_, by simp only [regValue, hd]; rfl⟩
  | wcur => obtain ⟨-, e, -, he, -, -⟩ := sound_parts hs h; exact ⟨_, by simp only [regValue, he]; rfl⟩
  | phase => obtain ⟨-, e, -, he, -, -⟩ := sound_parts hs h; exact ⟨_, by simp only [regValue, he]; rfl⟩

/-! ### One step -/

/-- Everything one step can do. -/
theorem step_next {s t : State} (h : step s = .next t) :
    (s.pending = [] ∧ t = s) ∨
      (∃ rest, s.pending = .reset :: rest ∧ t = resetMachine { s with pending := rest }) ∨
      (∃ w d rest e, s.pending = .command w d :: rest ∧ decode w d = .error e ∧
        t = ({ s with pending := rest } : State).answer .eill []) ∨
      (∃ w d rest i, s.pending = .command w d :: rest ∧ decode w d = .ok i ∧
        exec i { s with pending := rest } = .next t) := by
  unfold step at h
  rw [fetch_eq] at h
  split at h
  · next hp =>
    cases h
    split at hp
    · next h0 => exact .inl ⟨h0, rfl⟩
    · cases hp
    · split at hp <;> cases hp
  · next s' hp =>
    cases h
    split at hp
    · cases hp
    · next rest h0 => cases hp; exact .inr (.inl ⟨rest, h0, rfl⟩)
    · split at hp <;> cases hp
  · next s' e hp =>
    split at hp
    · cases hp
    · cases hp
    · next w d rest h0 =>
      split at hp
      · cases hp
      · next e' he => cases hp; exact .inr (.inr (.inl ⟨w, d, rest, e, h0, he, reject_next h⟩))
  · next s' i hp =>
    split at hp
    · cases hp
    · cases hp
    · next w d rest h0 =>
      split at hp
      · next i' hi => cases hp; exact .inr (.inr (.inr ⟨w, d, rest, i, h0, hi, h⟩))
      · cases hp

end Sys2Proof.Laws
end

