-- ==== Sys2Proof/Laws/PerInstr.lean ====
section
/-! SUPPORT. Statements made of every instruction as syntax, one lemma per constructor. -/

namespace Sys2Proof.Laws.AnnouncedData

open Sys2Proof

/-- The command word that spells an instruction announces exactly the data words that come with it: `nin` (R78). -/
def Statement (i : Instr) : Prop := wellFormed i = true → dataCount (encodeWord i) = (encodeData i).length

theorem cfgWr (f : CfgField) (v : DataWord) : Statement (.cfgWr f v) := fun _ => by
  have h1 : opcOf (encodeWord (.cfgWr f v)) = 0x01 :=
    opcOf_cmdWord (by norm_num) (lt_of_le_of_lt (idOfField_le f) (by norm_num))
  simp only [dataCount, h1, encodeData, List.length_singleton]

theorem cfgCommit : Statement .cfgCommit := fun _ => rfl

theorem openStream : Statement .openStream := fun _ => rfl

theorem startStream : Statement .startStream := fun _ => rfl

theorem step (x : F) : Statement (.step x) := fun _ => by
  have h1 : opcOf (encodeWord (.step x)) = 0x05 := opcOf_cmdWord (by norm_num) (by norm_num)
  simp only [dataCount, h1, encodeData, List.length_singleton]

theorem block (xs : List F) : Statement (.block xs) := fun h => by
  have hl : xs.length < 2 ^ 24 := blockLengthFits_iff.1 h
  have h1 : opcOf (encodeWord (.block xs)) = 0x06 := opcOf_cmdWord (by norm_num) hl
  have h2 : argOf (encodeWord (.block xs)) = xs.length := argOf_cmdWord hl
  simp only [dataCount, h1, h2, encodeData]

theorem stopStream : Statement .stopStream := fun _ => rfl

theorem closeStream : Statement .closeStream := fun _ => rfl

theorem rd (r : RegName) : Statement (.rd r) := fun _ => by
  cases r with
  | cfg f => cases f <;> rfl
  | _ => rfl

end Sys2Proof.Laws.AnnouncedData
end

