-- ==== Sys2Proof/Tests/Slice0.lean ====
section
/-! SUPPORT. Tests: ill-formed instructions refused, command words written out from the encoding tables of
30_encoding.md, one step of each command against the vectors of 95_test_vectors.md, and, for every statement of
Certificates/Slice0 that has hypotheses, states and operands that meet them all (`test_meets_…`). -/

namespace Sys2Proof.Tests

open Sys2Proof Sys2Proof.Machine

/- Each kernel evaluation below waits for the kernel to have checked all that stands before it. Elaborated side by side,
every one of them would hold a thread, and its stack, while it waits; one after another they need few. -/
set_option Elab.async false

/-! ### States to test on -/

/-- The reset configuration with a concrete block size. -/
def plain : EffectConfig := { resetConfig Config.params with blockSize := 256 }

/-- The small configuration of 95_test_vectors.md: capacity 8, a modulation period of four samples. -/
def small (depth : F) : EffectConfig :=
  { plain with sampleRate := 160, modFreq := 0x4044000000000000, depth := depth }

/-- Capacity 1 (V-CFG-11). -/
def tiny : EffectConfig := { plain with sampleRate := 20, modFreq := 0x3FF0000000000000, depth := 0x3FE0000000000000 }

/-- IDLE with a configuration. -/
def idleWith (c : EffectConfig) : State := { State.reset with cfg := c }

/-- A committed configuration in a later lifecycle state. -/
def stateAt (l : LState) (c : EffectConfig) (e : Option Engine) : State :=
  { State.reset with cfg := c, derived := some (deriveFrom Config.params posZero c), engine := e, lstate := l }

/-- RUNNING, just opened. -/
def running (c : EffectConfig) : State := stateAt .running c (some openedEngine)

/-- ERROR after a commit with a depth of -1 (program P3). -/
def failed : State :=
  { State.reset with cfg := { plain with depth := 0xBFF0000000000000 }, lstate := .error, errCause := .depthNotPositive }

/-- A reset state with events waiting. -/
def issued (events : List HostEvent) : State := { State.reset with pending := events }

/-- A field of the next state, where there is one. -/
def after {α : Type} (r : Result) (f : State → α) : Option α :=
  match r with
  | .next s => some (f s)
  | .fault _ => none
  | .refused _ => none

/-- The responses of the next state: here always the one response of the step. -/
def answers (r : Result) : Option (List Response) := after r State.responses

/-! ### Well-formedness: a block of `2^24` samples has no encoding -/

theorem test_illFormed_block : wellFormed (.block (List.replicate (2 ^ 24) posZero)) = false := by
  simp only [wellFormed, blockLengthFits, List.length_replicate]; decide

theorem test_wellFormed_longest_block : wellFormed (.block (List.replicate (2 ^ 24 - 1) posZero)) = true := by
  simp only [wellFormed, blockLengthFits, List.length_replicate]; decide

/-! ### Decoding: OPC in bits 31:24, ARG in bits 23:0 (R71, V-ENC) -/

theorem test_decode_cfgWr :
    decode 0b00000001000000000000000000000101 [0x3FE0000000000000] = .ok (.cfgWr .wetGain 0x3FE0000000000000) := by
  decide

theorem test_decode_cfgCommit : decode 0b00000010000000000000000000000000 [] = .ok .cfgCommit := by decide

theorem test_decode_open : decode 0b00000011000000000000000000000000 [] = .ok .openStream := by decide

theorem test_decode_start : decode 0b00000100000000000000000000000000 [] = .ok .startStream := by decide

theorem test_decode_step :
    decode 0b00000101000000000000000000000000 [0x3FF0000000000000] = .ok (.step 0x3FF0000000000000) := by decide

theorem test_decode_block :
    decode 0b00000110000000000000000000000010 [1, 2] = .ok (.block [1, 2]) := by decide

theorem test_decode_stop : decode 0b00000111000000000000000000000000 [] = .ok .stopStream := by decide

theorem test_decode_close : decode 0b00001000000000000000000000000000 [] = .ok .closeStream := by decide

theorem test_decode_rd : decode 0b00001001000000000000000000001100 [] = .ok (.rd .wcur) := by decide

theorem test_decode_rd_lstate : decode 0x09000008 [] = .ok (.rd .lstate) := by decide

/-- V-ILL-1 to V-ILL-12: one transaction at least for each case of R80. -/
theorem test_decode_illegal :
    decode 0x00000000 [] = .error .reservedOpcode ∧ decode 0x0A000000 [] = .error .reservedOpcode ∧
    decode 0xFF000000 [] = .error .reservedOpcode ∧ decode 0x02000001 [] = .error .nonZeroArg ∧
    decode 0x05000001 [0x3FF0000000000000] = .error .nonZeroArg ∧ decode 0x07800000 [] = .error .nonZeroArg ∧
    decode 0x01000006 [0] = .error .noSuchField ∧ decode 0x09000006 [] = .error .noSuchRegister ∧
    decode 0x09000007 [] = .error .noSuchRegister ∧ decode 0x0900000E [] = .error .noSuchRegister ∧
    decode 0x06000002 [0x3FF0000000000000] = .error .wrongDataCount ∧ decode 0x05000000 [] = .error .wrongDataCount := by
  decide

/-- The table numbers the command word first: STEP of 1.0 over 96 bits, and over the row's 32 bits with a zero word. -/
theorem test_decodeTableWord :
    decodeTableWord 96 (0x3FF0000000000000 * 2 ^ 32 + 0x05000000) = some (.step 0x3FF0000000000000) ∧
      decodeTableWord 32 0x05000000 = some (.step 0) := by decide

/-- The placed instruction is the one the next step runs. -/
theorem test_withFetchWord :
    answers (step (State.reset.withFetchWord 32 0x09000000)) = some [⟨.ok, [144000]⟩] := by decide

/-! ### Configuration (V-CFG) -/

theorem test_cfgWr_last_write : after (exec (.cfgWr .depth 0x3F60624DD2F1A9FC) (idleWith plain)) (fun s => s.cfg.depth) =
    some 0x3F60624DD2F1A9FC := by decide

theorem test_cfgWr_frozen : answers (exec (.cfgWr .depth 0) (running plain)) = some [⟨.estate, []⟩] := by decide

/-- V-CFG-1: 144000 Hz and 0.25 Hz give `CAP` 7200 and the printed increment. -/
theorem test_commit_reset_values :
    deriveFrom Config.params posZero plain = ⟨7200, 0x4101940000000000, 0x3EE6E05A695F8190⟩ ∧
      firstFailing Config.params posZero plain = .none := by decide +kernel

/-- V-CFG-10 to 15, 18, 21 to 23, 25, 26, 28, 29. -/
theorem test_commit_causes :
    firstFailing Config.params posZero { plain with sampleRate := 19 } = .badSampleRate ∧
    firstFailing Config.params posZero { plain with sampleRate := 1310740 } = .badSampleRate ∧
    firstFailing Config.params posZero { plain with sampleRate := 1310739 } = .none ∧
    firstFailing Config.params posZero { plain with modFreq := 0x4101940000000000 } = .badModFreq ∧
    firstFailing Config.params posZero { plain with modFreq := 0x410193FFFFFFFFFF } = .none ∧
    firstFailing Config.params posZero { plain with modFreq := 0x0000000000000001 } = .badModFreq ∧
    firstFailing Config.params posZero { plain with dryGain := 0x7FF0000000000000 } = .badGain ∧
    firstFailing Config.params posZero { plain with wetGain := 0x7FF8000000000000 } = .badGain ∧
    firstFailing Config.params posZero { plain with depth := 0xBFF0000000000000, sampleRate := 0 } = .depthNotPositive ∧
    firstFailing Config.params posZero { plain with depth := 0x7FF0000000000000, modFreq := 0 } = .depthNotNumeric := by decide +kernel

/-! ### Lifecycle and observation (V-LIFE, V-RD) -/

theorem test_open : after (exec .openStream (stateAt .configured plain none)) (fun s => (s.lstate, s.engine)) =
    some (.ready, some ⟨[], 0, 0⟩) := by decide +kernel

theorem test_open_twice : answers (exec .openStream (stateAt .ready plain (some openedEngine))) =
    some [⟨.estate, []⟩] := by decide

theorem test_start : after (exec .startStream (stateAt .ready plain (some openedEngine))) State.lstate = some .running := by
  decide

theorem test_start_no_restart : answers (exec .startStream (stateAt .stopped plain (some openedEngine))) =
    some [⟨.estate, []⟩] := by decide

theorem test_stop : after (exec .stopStream (running plain)) (fun s => (s.lstate, s.engine)) =
    some (.stopped, some openedEngine) := by decide

theorem test_close : after (exec .closeStream (stateAt .stopped plain (some openedEngine))) (fun s => (s.lstate, s.engine)) =
    some (.closed, none) := by decide

theorem test_close_running : answers (exec .closeStream (running plain)) = some [⟨.estate, []⟩] := by decide

/-- V-RD-17: ERROR still answers `LSTATE` 7 and `ERR_CAUSE` 2. -/
theorem test_rd_error : answers (exec (.rd .lstate) failed) = some [⟨.ok, [7]⟩] ∧
    answers (exec (.rd .errCause) failed) = some [⟨.ok, [2]⟩] := by decide

/-- V-RD-8, V-RD-11: `CAP` has no value in IDLE and is 7200 afterwards. -/
theorem test_rd_cap : answers (exec (.rd .cap) (idleWith plain)) = some [⟨.estate, []⟩] ∧
    answers (exec (.rd .cap) (stateAt .closed plain none)) = some [⟨.ok, [0x1C20]⟩] := by decide +kernel

/-! ### Samples (V-STEP, V-BLK) -/

/-- V-STEP-1, V-LFO-1: the first sample answers 0.7, stores 1.0 at index 0, and the phase is one increment. -/
theorem test_step_first :
    answers (exec (.step 0x3FF0000000000000) (running plain)) = some [⟨.ok, [0x3FE6666666666666]⟩] ∧
      after (exec (.step 0x3FF0000000000000) (running plain)) State.engine =
        some (some ⟨[(0, 0x3FF0000000000000)], 1, 0x3EE6E05A695F8190⟩) := by decide +kernel

/-- V-STEP-7: minus zero is stored unchanged, and the output is plus zero. -/
theorem test_step_minus_zero :
    answers (exec (.step 0x8000000000000000) (running plain)) = some [⟨.ok, [0x0000000000000000]⟩] ∧
      after (exec (.step 0x8000000000000000) (running plain)) (fun s => bufferWord s 0) =
        some (some 0x8000000000000000) := by decide +kernel

/-- V-BLK-1: the block of one sample; V-BLK-2: the empty block in READY. -/
theorem test_block : answers (exec (.block [0x3FF0000000000000]) (running plain)) =
      some [⟨.ok, [0x3FE6666666666666]⟩] ∧
    answers (exec (.block []) (stateAt .ready plain (some openedEngine))) = some [⟨.estate, []⟩] := by decide +kernel

/-- T5: the delays of the printed products at capacity 7200: in range, clamped, infinite, and subnormal. -/
theorem test_delay :
    delaySamples 7200 0x4092000000000000 = .ok 1152 ∧ delaySamples 7200 0x40BC1F0031128825 = .ok 7199 ∧
    delaySamples 7200 0x40BC200000000000 = .ok 7199 ∧ delaySamples 7200 0x7FF0000000000000 = .ok 7199 ∧
    delaySamples 7200 0x0000000000023280 = .ok 0 := by decide +kernel

/-- U13, decision D18: the floor of a NaN and of a negative product is a fault; `-0.0` is no negative value. -/
theorem test_delay_faults :
    delaySamples 7200 0x7FF8000000000000 = .error .internalNan ∧
    delaySamples 7200 0xBFF0000000000000 = .error .internalNan ∧
    delaySamples 7200 0xFFF0000000000000 = .error .internalNan ∧
    delaySamples 7200 0x8000000000000000 = .ok 0 := by decide +kernel

/-- The parameters of R6 reach the rules: another sample rate after reset (D13), another `MAX_DELAY` and `CAP_MAX`
(D10), and a strict wrap comparison, which keeps a phase of `TWO_PI` (D16). -/
theorem test_parameters_vary :
    (resetWith { Config.params with srReset := 48000 }).cfg.sampleRate = 48000 ∧
    (deriveFrom { Config.params with capDivisor := 10 } posZero plain).cap = 14400 ∧
    firstFailing { Config.params with capMax := 7199 } posZero plain = .badSampleRate ∧
    wrapPhase { Config.params with wrapsAtEqual := false } posZero Config.twoPi = Config.twoPi ∧
    wrapPhase Config.params posZero Config.twoPi = posZero := by decide +kernel

/-- The spec's parameters fit together, and a sample memory that `IDX_W` does not reach does not (R6). -/
theorem test_parametersOk : parametersOk Config.params = true ∧
    parametersOk { Config.params with capMax := 65537 } = false ∧
    parametersOk { Config.params with capMax := 65537, idxW := 17 } = true := by decide

/-- A sample memory of `2^20` words with indices of 20 bits (R6 `CAP_MAX`, `IDX_W`): nothing of `CAP` and `WCUR` is cut. -/
theorem test_wide_indices :
    (deriveFrom { Config.params with capMax := 2 ^ 20, idxW := 20 } posZero { plain with sampleRate := 20971520 }).cap =
      1048576 ∧
    nextCursor 1048576 65535 20 = 65536 ∧ nextCursor 1048576 1048575 20 = 0 := by decide +kernel

/-- A block-length field of 8 bits (R6 `N_W`): BLOCK of two samples, and a block of 256 samples has no encoding. -/
theorem test_narrow_block_length :
    decode 0x00000602 [1, 2] 8 = .ok (.block [1, 2]) ∧ encode (.block [1, 2]) 8 = (0x00000602, [1, 2]) ∧
    blockLengthFits (List.replicate 256 posZero) 8 = false := by decide +kernel

/-- Binary32 as `F` (R6; IEEE 754, by hand): 1 + 1, 1.5 * 1.5, 1 / 3, the integer 20, the floor of 2.5, a NaN. -/
theorem test_binary32 :
    fadd posZero (one ⟨8, 23⟩) 0x3F800000 ⟨8, 23⟩ = 0x40000000 ∧
    fmul posZero 0x3FC00000 0x3FC00000 ⟨8, 23⟩ = 0x40100000 ∧
    fdiv posZero 0x3F800000 0x40400000 ⟨8, 23⟩ = 0x3EAAAAAB ∧
    ofUint 20 ⟨8, 23⟩ = 0x41A00000 ∧ ffloorInt 0x40200000 ⟨8, 23⟩ = some 2 ∧
    isNaN 0x7FC00000 ⟨8, 23⟩ = true := by decide +kernel

/-- V-LFO-3: the printed sine values give the printed factors. V-LFO-2, call 576000: the wrap keeps the excess. -/
theorem test_lfo_rows :
    fadd posZero one 0x3FF0000000000000 = 0x4000000000000000 ∧
    fadd posZero one 0x3CA1A62633145C07 = 0x3FF0000000000001 ∧
    fadd posZero one 0xBFF0000000000000 = 0x0000000000000000 ∧
    lfoPhase Config.params posZero 0x401921F878395FA3 0x3EE6E05A695F8190 = 0x3DBFEDC000000000 := by decide +kernel

/-! ### Witnesses: each statement's hypotheses met together, each clause at a boundary of its range -/

/-- Whether a meaning answers a next state. -/
def completes (r : Result) : Bool := (after r fun _ => ()).isSome

theorem completes_iff {r : Result} : completes r = true ↔ ∃ t, r = .next t := by
  cases r <;> simp [completes, after]

/-- RUNNING at capacity 8 with the cursor on the last index. -/
def lastIndex : State := stateAt .running (small 0x3F8999999999999A) (some ⟨[(7, one)], 7, 0⟩)

/-- RUNNING with the smallest depth: the first delay is 0 (T5). -/
def noDelay : State := running { plain with depth := 1 }

/-- RUNNING with a depth whose delay product overflows (T5). -/
def overflowing : State := running { plain with depth := 0x7FE1CCF385EBC8A0 }

/-- RUNNING with the clamp at work on the first sample (V-STEP-3). -/
def clamped : State := running (small 0x3FA999999999999A)

theorem test_meets_DecodeOfEncodeIsInstruction :
    wellFormed (.block [one, one]) = true ∧ wellFormed (.rd .phase) = true := by decide

theorem test_meets_EncodeOfDecodedIsTransaction :
    decode 0x01000005 [one] = .ok (.cfgWr .wetGain one) ∧ decode 0x0900000D [] = .ok (.rd .phase) ∧
      decode 0x06000000 [] = .ok (.block []) := by decide

theorem test_meets_ReservedTransactionsAnswerEill :
    (issued [.command 0x0900000E [], .reset]).pending = .command 0x0900000E [] :: [.reset] ∧
      decode 0x0900000E [] = .error .noSuchRegister := by decide

theorem test_meets_StepRunsDecodedInstruction :
    (issued [.command 0x06000001 [one], .reset]).pending = .command 0x06000001 [one] :: [.reset] ∧
      decode 0x06000001 [one] = .ok (.block [one]) := by decide

theorem test_meets_IdleStepKeepsState : State.reset.pending = [] ∧ (running plain).pending = [] := by decide

theorem test_meets_ResetRestoresResetValues :
    ({ failed with pending := [.reset] } : State).pending = .reset :: [] := by decide

theorem test_meets_StepTakesOneEvent :
    (completes (step (issued [.command 0x04000000 []])) = true ∧
      ∃ w d, (issued [.command 0x04000000 []]).pending.head? = some (.command w d)) ∧
    (completes (step (issued [.reset])) = true ∧
      ∀ w d, (issued [.reset]).pending.head? ≠ some (.command w d)) :=
  ⟨⟨by decide, _, _, rfl⟩, by decide, fun _ _ h => by cases h⟩

theorem test_meets_LifecycleFollowsTable :
    (completes (exec .cfgCommit (idleWith plain)) = true ∧ admitted .cfgCommit (idleWith plain).lstate = true) ∧
    (completes (exec .cfgCommit (idleWith { plain with depth := 0 })) = true ∧ admitted .cfgCommit .idle = true) ∧
    (completes (exec (.rd .cap) failed) = true ∧ admitted (.rd .cap) failed.lstate = false) ∧
    (issued [.reset]).pending = [.reset] ∧
    after (step { idleWith plain with pending := [.command 0x02000000 []] }) State.lstate = some .configured := by
  decide +kernel

theorem test_meets_RejectionsChangeNothing :
    admitted (.block []) (stateAt .ready plain none).lstate = false ∧
      (issued [.command 0xFF000000 []]).pending = .command 0xFF000000 [] :: [] ∧
      decode 0xFF000000 [] = .error .reservedOpcode := by decide

theorem test_meets_ErrorIsLeftOnlyByReset :
    failed.lstate = .error ∧ (∀ r, Instr.openStream ≠ .rd r) ∧
      completes (step { failed with pending := [.command 0x03000000 []] }) = true ∧
      completes (step { failed with pending := [.reset] }) = true :=
  ⟨rfl, (fun _ h => by cases h), by decide, by decide⟩

theorem test_meets_ConfigurationIsFrozen :
    ((running plain).lstate ≠ .idle ∧ completes (exec (.cfgWr .depth 0) (running plain)) = true) ∧
    (sound (idleWith { plain with depth := 0 }) = true ∧ (idleWith { plain with depth := 0 }).lstate = .idle ∧
      after (exec .cfgCommit (idleWith { plain with depth := 0 })) State.lstate = some .error) := by decide +kernel

theorem test_meets_OnlyNamedCommandsWrite :
    completes (exec (.rd .wcur) (running plain)) = true ∧ completes (exec .stopStream (running plain)) = true ∧
      completes (exec (.cfgWr .depth 0) (idleWith plain)) = true ∧
      completes (exec (.step one) (running plain)) = true := by decide +kernel

theorem test_meets_ResponsesHaveTheirShape :
    completes (exec (.block [one]) (running plain)) = true ∧ completes (exec (.rd .cap) failed) = true ∧
      completes (exec .cfgCommit (idleWith { plain with depth := 0 })) = true := by decide +kernel

theorem test_meets_CfgWrStoresField :
    (idleWith plain).lstate = .idle ∧ CfgField.wetGain ≠ .sampleRate ∧ (running plain).lstate ≠ .idle := by decide

/-- The hypotheses of the commit at the rate `n`, with the increment its equation gives. -/
def commitHypotheses (n : BitVec 64) : Bool :=
  let inc := fdiv (drawNaN 0) (fmul (drawNaN 0) 0x401921FB54442D18 plain.modFreq) (ofUint n.toNat)
  isFinite plain.depth && fgt plain.depth posZero && decide (20 ≤ n.toNat) && decide (n.toNat ≤ 1310739) &&
    isFinite plain.modFreq && fgt plain.modFreq posZero && fgt inc posZero && flt inc 0x401921FB54442D18 &&
    isFinite plain.dryGain && isFinite plain.wetGain

/-- At both ends of the rate's range. -/
theorem test_meets_CommitDerivesFromLegalConfig :
    (idleWith { plain with sampleRate := 20 }).lstate = .idle ∧ commitHypotheses 20 = true ∧
      commitHypotheses 1310739 = true := by decide +kernel

/-- Each of the five failures, the rate on both sides and the increment at `TWO_PI` and at zero. -/
theorem test_meets_CommitReportsFirstFailure :
    isFinite 0x7FF0000000000000 = false ∧
    (isFinite posZero = true ∧ fgt posZero posZero = false) ∧
    (isFinite plain.depth = true ∧ fgt plain.depth posZero = true ∧ 19 < 20 ∧ 1310739 < 1310740) ∧
    flt (fdiv (drawNaN 0) (fmul (drawNaN 0) 0x401921FB54442D18 0x4101940000000000) (ofUint 144000))
      0x401921FB54442D18 = false ∧
    fgt (fdiv (drawNaN 0) (fmul (drawNaN 0) 0x401921FB54442D18 0x0000000000000001) (ofUint 144000)) posZero = false ∧
    (fgt (fdiv (drawNaN 0) (fmul (drawNaN 0) 0x401921FB54442D18 plain.modFreq) (ofUint 144000)) posZero = true ∧
      flt (fdiv (drawNaN 0) (fmul (drawNaN 0) 0x401921FB54442D18 plain.modFreq) (ofUint 144000))
        0x401921FB54442D18 = true ∧ isFinite 0xFFF0000000000000 = false) := by decide +kernel

theorem test_meets_BlockSizeIsNeverRead :
    Instr.cfgCommit ≠ .rd (.cfg .blockSize) ∧ (∀ w, Instr.cfgCommit ≠ .cfgWr .blockSize w) ∧
      completes (exec .cfgCommit (idleWith plain)) = true :=
  ⟨by decide, (fun _ h => by cases h), by decide +kernel⟩

theorem test_meets_OpenCreatesSilentEngine :
    ((stateAt .configured plain none).lstate = .configured ∧ (stateAt .configured plain none).derived ≠ none) ∧
      State.reset.lstate ≠ .configured := ⟨⟨rfl, by simp [stateAt]⟩, by decide⟩

theorem test_meets_StartOnlyStarts :
    (stateAt .ready plain (some openedEngine)).lstate = .ready ∧ (running plain).lstate ≠ .ready := by decide

theorem test_meets_StopOnlyStops :
    ((running plain).lstate = .running ∧ (running plain).engine = some openedEngine) ∧
      (stateAt .stopped plain (some openedEngine)).lstate ≠ .running := by decide

theorem test_meets_CloseDestroysEngine :
    (stateAt .ready plain (some openedEngine)).lstate = .ready ∧
      (stateAt .stopped plain (some openedEngine)).lstate = .stopped ∧
      ((running plain).lstate ≠ .ready ∧ (running plain).lstate ≠ .stopped) := by decide

/-- A sound state in each of the seven lifecycle states. -/
theorem test_meets_sound :
    sound (idleWith plain) = true ∧ sound (stateAt .configured plain none) = true ∧
      sound (stateAt .ready plain (some openedEngine)) = true ∧ sound (running plain) = true ∧
      sound (stateAt .stopped plain (some openedEngine)) = true ∧ sound (stateAt .closed plain none) = true ∧
      sound failed = true := by decide +kernel

theorem test_meets_RdAnswersRegister :
    (sound (idleWith plain) = true ∧ (idleWith plain).lstate = .idle) ∧
      (sound (stateAt .closed plain none) = true ∧ (stateAt .closed plain none).lstate ≠ .idle ∧
        (stateAt .closed plain none).lstate ≠ .error) ∧
      (sound lastIndex = true ∧ lastIndex.lstate = .running) := by decide +kernel

/-- Both cases of the clamp, at capacity 8: a product of 8 and a product of 2. -/
theorem test_meets_StepComputesOneSample :
    (sound clamped = true ∧ clamped.lstate = .running ∧
      fge (nextProduct clamped.cfg (deriveFrom Config.params posZero clamped.cfg) 0 openedEngine) (ofUint 7) = true) ∧
    (sound lastIndex = true ∧ lastIndex.lstate = .running ∧
      fge (nextProduct lastIndex.cfg (deriveFrom Config.params posZero lastIndex.cfg) 0 openedEngine) (ofUint 7) = false) ∧
    State.reset.lstate ≠ .running := by decide +kernel

theorem test_meets_InputIsWrittenBack :
    sound lastIndex = true ∧ lastIndex.lstate = .running ∧
      after (exec (.step posZero) lastIndex) (fun s => bufferWord s 7) = some (some posZero) := by decide +kernel

theorem test_meets_CursorAdvancesByOne :
    (sound lastIndex = true ∧ lastIndex.lstate = .running ∧
      after (exec (.step one) lastIndex) cursorOf = some (some 0)) ∧
    (sound (running plain) = true ∧ after (exec (.step one) (running plain)) cursorOf = some (some 1)) := by
  decide +kernel

theorem test_meets_StepFrame :
    completes (exec (.step one) lastIndex) = true ∧ cursorOf lastIndex = some 7 ∧
      completes (exec (.step one) failed) = true := by decide +kernel

theorem test_meets_DelayIsClampedFloor :
    (derivedOk overflowing.cfg (deriveFrom Config.params posZero overflowing.cfg) = true ∧ phaseOk openedEngine.phase = true ∧
      isInf (nextProduct overflowing.cfg (deriveFrom Config.params posZero overflowing.cfg) 0 openedEngine) = true) ∧
    (derivedOk noDelay.cfg (deriveFrom Config.params posZero noDelay.cfg) = true ∧
      isFinite (nextProduct noDelay.cfg (deriveFrom Config.params posZero noDelay.cfg) 0 openedEngine) = true) := by decide +kernel

/-- At the least and the greatest capacity of the statement; the negative value is the one nearest to zero. -/
theorem test_meets_NanOrNegativeProductFaults :
    1 ≤ 2 ^ 17 ∧ isNaN 0x7FF0000000000001 = true ∧ flt 0x8000000000000001 0x0000000000000000 = true ∧
      delaySamples 1 0x7FF0000000000001 = .error .internalNan ∧
      delaySamples (2 ^ 17) 0x8000000000000001 = .error .internalNan := by decide +kernel

theorem test_meets_ReadIndexIsInRange :
    (0 < 1 ∧ readIndex 1 0 0 = 0) ∧ readIndex 8 0 7 = 1 ∧ readIndex 8 7 0 = 7 ∧ readIndex 7200 0 1152 = 6048 := by decide

theorem test_meets_ZeroDelayReadsOldestWord :
    sound noDelay = true ∧ noDelay.lstate = .running ∧ noDelay.derived = some (deriveFrom Config.params posZero noDelay.cfg) ∧
      noDelay.engine = some openedEngine ∧
      nextDelay noDelay.cfg (deriveFrom Config.params posZero noDelay.cfg) noDelay.nanDraws openedEngine = .ok 0 := by decide +kernel

theorem test_meets_FirstOutputHasSilentTap :
    sound (running plain) = true ∧ (running plain).lstate = .running ∧ (running plain).engine = some openedEngine := by
  decide +kernel

theorem test_meets_SineHasItsProperties :
    (isFinite 0x0000000000000000 = true ∧ fge 0x0000000000000000 0x0000000000000000 = true ∧
      fge 0x401921FB54442D18 0x0000000000000000 = true) ∧
    (isFinite 0x401921FB54442D18 = true ∧ fge 0x401921FB54442D18 0x0000000000000000 = true ∧
      fge 0x401921FB54442D18 0x401921FB54442D18 = true) := by decide

theorem test_meets_FactorLiesBetweenZeroAndTwo :
    phaseOk 0x0000000000000000 = true ∧ phaseOk 0x401921FB54442D17 = true := by decide

/-- V-LFO-5: the phase and the increment just below `TWO_PI`, and both near zero. -/
theorem test_meets_PhaseStaysInRange :
    (isFinite 0x401921FB54442D17 = true ∧ fge 0x401921FB54442D17 posZero = true ∧
      flt 0x401921FB54442D17 0x401921FB54442D18 = true ∧ fgt 0x401921FB54442D17 posZero = true) ∧
    (isFinite posZero = true ∧ fge posZero posZero = true ∧ flt posZero 0x401921FB54442D18 = true ∧
      fgt 1 posZero = true ∧ flt 1 0x401921FB54442D18 = true) := by decide

theorem test_meets_WrapSubtractionIsExact :
    (fge 0x401921FB54442D18 0x401921FB54442D18 = true ∧ fge 0x402921FB54442D18 0x401921FB54442D18 = true) ∧
      fge 0x402921FB54442D18 0x402921FB54442D18 = true := by decide

/-- A tie: `2^53 + 1` units lie half way between two magnitudes. -/
theorem test_meets_RoundingIsNearestEven :
    0 < 1 ∧ 2 ^ 53 + 1 ≤ infMag ∧
      |((2 ^ 53 + 1 : Nat) : Int) - (unitsOfMag (roundMag (2 ^ 53 + 1) 1) : Int) * (1 : Nat)| =
        |((2 ^ 53 + 1 : Nat) : Int) - (unitsOfMag (2 ^ 53 + 1) : Int) * (1 : Nat)| ∧
      2 ^ 53 + 1 ≠ roundMag (2 ^ 53 + 1) 1 := by decide +kernel

theorem test_meets_OfUintIsExact : 0 < 2 ^ 53 ∧ 2 ^ 53 - 1 < 2 ^ 53 := by decide

theorem test_meets_FiniteResultsAreRoundedOnce :
    isFinite 0x7FEFFFFFFFFFFFFF = true ∧ isFinite 0x8000000000000001 = true ∧
      unitsOf 0x7FEFFFFFFFFFFFFF + unitsOf 0x8000000000000001 ≠ 0 ∧ magOf 0x8000000000000001 ≠ 0 := by decide +kernel

theorem test_meets_ReadGivesWordLastWritten : memWf 8 [(0, one), (7, one)] = true ∧ 7 < 8 ∧ 0 ≠ 7 := by decide

theorem test_meets_BufferHoldsLastInputs :
    sound clamped = true ∧ clamped.lstate = .running ∧ clamped.derived = some (deriveFrom Config.params posZero clamped.cfg) ∧
      clamped.engine = some openedEngine ∧ 1 ≤ (deriveFrom Config.params posZero clamped.cfg).cap := by decide +kernel

theorem test_meets_OutputsIgnoreInitialCursor :
    sound clamped = true ∧ clamped.lstate = .running ∧ clamped.derived = some (deriveFrom Config.params posZero clamped.cfg) ∧
      clamped.engine = some openedEngine ∧ 7 < (deriveFrom Config.params posZero clamped.cfg).cap := by
  decide +kernel

theorem test_meets_TapIsDelayedInput :
    sound noDelay = true ∧ noDelay.lstate = .running ∧ noDelay.derived = some (deriveFrom Config.params posZero noDelay.cfg) ∧
      noDelay.engine = some openedEngine := by decide +kernel

theorem test_meets_BlockIsItsSamplesInOrder :
    (running tiny).lstate = .running ∧ sound (running tiny) = true ∧ State.reset.lstate ≠ .running ∧
      answers (exec (.step one) (running tiny)) = some [⟨.ok, [0x3FE6666666666666]⟩] ∧
      ∀ u : State, u.lstate = .running → exec (.block []) u = .next (u.answer .ok []) :=
  ⟨rfl, by decide +kernel, by decide, by decide +kernel, fun u hu => by simp [exec, execBlock, blockWith, hu, samplesOn, respond]⟩

theorem test_meets_BlocksCompose :
    exec (.block []) (running plain) = .next ((running plain).answer .ok []) ∧
      ((running plain).answer .ok []).responses = (running plain).responses ++ [⟨.ok, []⟩] ∧
      answers (exec (.block [one]) ((running plain).answer .ok [])) =
        some (((running plain).answer .ok []).responses ++ [⟨.ok, [0x3FE6666666666666]⟩]) :=
  ⟨rfl, rfl, by decide +kernel⟩

theorem test_meets_BlockFrame :
    sound lastIndex = true ∧ lastIndex.lstate = .running ∧
      lastIndex.derived = some (deriveFrom Config.params posZero lastIndex.cfg) ∧ lastIndex.engine = some ⟨[(7, one)], 7, 0⟩ ∧
      completes (exec (.block [one]) lastIndex) = true ∧
      ∀ j, j < [one].length → 0 ≠ (7 + j) % (deriveFrom Config.params posZero lastIndex.cfg).cap := by decide +kernel

theorem test_meets_DelayPathIgnoresSamples :
    sound (running plain) = true ∧ (running plain).lstate = .running ∧ [one].length = [posZero].length ∧
      completes (exec (.block [one]) (running plain)) = true ∧
      completes (exec (.block [posZero]) (running plain)) = true := by decide +kernel

/-- The parameters of the spec at the top of the rate's range and of the cursor's, and the least of all parameters. -/
theorem test_meets_CapacityFitsEveryConfiguration :
    (1 ≤ Config.params.capDivisor ∧ Config.params.capMax ≤ 2 ^ Config.params.idxW ∧
      firstFailing Config.params posZero { plain with sampleRate := 1310739 } = .none ∧
      65535 <
        (deriveFrom Config.params posZero { plain with sampleRate := 1310739 }).cap) ∧
    (1 ≤ ({ Config.params with capDivisor := 1, capMax := 1 } : Parameters).capDivisor ∧
      ({ Config.params with capDivisor := 1, capMax := 1 } : Parameters).capMax ≤ 2 ^ 0 ∧
      firstFailing { Config.params with capDivisor := 1, capMax := 1, idxW := 0 } posZero { plain with sampleRate := 1 } =
        .none) := by
  decide +kernel

/-- Both ends of the widths, each with the longest block that fits or the largest id. -/
theorem test_meets_DecodeOfEncodeAtEveryWidth :
    (4 ≤ 4 ∧ 4 ≤ 28 ∧ wellFormed (.block (List.replicate 15 posZero)) 4 = true) ∧
      (28 ≤ 28 ∧ wellFormed (.rd .phase) 28 = true) := by decide

theorem test_meets_EveryStepKeepsSoundness :
    sound { running plain with pending := [.command 0x05000000 [one]] } = true ∧
      completes (step { running plain with pending := [.command 0x05000000 [one]] }) = true := by decide +kernel

theorem test_meets_SoundStatesAlwaysStep :
    sound { failed with pending := [.command 0x05000000 [one]] } = true ∧
      sound (issued [.command 0xFFFFFFFF []]) = true := by decide +kernel

theorem test_meets_SoundStatesMeetSpecInvariants :
    sound lastIndex = true ∧ lastIndex.derived = some (deriveFrom Config.params posZero lastIndex.cfg) ∧
      lastIndex.engine = some ⟨[(7, one)], 7, 0⟩ ∧ (deriveFrom Config.params posZero lastIndex.cfg).cap ≤ 8 := by decide +kernel

end Sys2Proof.Tests
end

namespace Sys2Proof.Proofs.Scope

/-! The scope family (00_scope.md): the parameters of R6 and the arithmetic of R8. Each group of lemmas stands before
the statement it settles. -/

open Sys2Proof Sys2Proof.Machine Sys2Proof.Laws

/-! ### Rounding to nearest, ties to even (R8)

Rounding is judged against the midpoint of the chosen magnitude and any other: `n / d` lies on the chosen one's side of
it, or on it and then the chosen one is even. This is proved for the magnitude before `roundMag` cuts it at an infinity,
where no magnitude is too large, and carried over to `roundMag`. -/

/-- The magnitude that `roundMag` builds before it cuts an overflow down to an infinity. -/
def unboundedMag (n d : Nat) : Nat := roundHalfEven n (d <<< scaleOf n d) + scaleOf n d * 2 ^ 52

theorem roundMag_eq_min (n d : Nat) : roundMag n d = min (unboundedMag n d) infMag := roundMag_eq n d

/-- It denotes the rounded significand, scaled back. -/
theorem unitsOfMag_unboundedMag {n d : Nat} (hd : 0 < d) :
    unitsOfMag (unboundedMag n d) = roundHalfEven n (d <<< scaleOf n d) * 2 ^ scaleOf n d :=
  have ⟨hg, hnormal⟩ := significand_bounds hd
  unitsOfMag_scaled _ _ hg hnormal

/-- The significand's last bit is the magnitude's. -/
theorem unboundedMag_even_iff (n d : Nat) :
    unboundedMag n d % 2 = 0 ↔ roundHalfEven n (d <<< scaleOf n d) % 2 = 0 := by
  unfold unboundedMag; omega

/-- A magnitude of scale `k` and significand `g` is at least `2^k` units below the next one. -/
theorem unitsOfMag_add_le_succ {k g : Nat} (hg : g ≤ 2 ^ 53) (hnormal : k = 0 ∨ 2 ^ 52 ≤ g) :
    unitsOfMag (g + k * 2 ^ 52) + 2 ^ k ≤ unitsOfMag (g + k * 2 ^ 52 + 1) := by
  rcases Nat.lt_or_ge g (2 ^ 53) with hlt | hge
  · rw [show g + k * 2 ^ 52 + 1 = (g + 1) + k * 2 ^ 52 by omega, unitsOfMag_scaled k g hg hnormal,
      unitsOfMag_scaled k (g + 1) hlt (by omega)]
    exact le_of_eq (by ring)
  · obtain rfl : g = 2 ^ 53 := by omega
    rw [show 2 ^ 53 + k * 2 ^ 52 = 2 ^ 52 + (k + 1) * 2 ^ 52 by omega,
      show 2 ^ 52 + (k + 1) * 2 ^ 52 + 1 = (2 ^ 52 + 1) + (k + 1) * 2 ^ 52 by omega,
      unitsOfMag_scaled (k + 1) (2 ^ 52) (by norm_num) (.inr le_rfl),
      unitsOfMag_scaled (k + 1) (2 ^ 52 + 1) (by norm_num) (.inr (by norm_num)), pow_succ]
    omega

/-- The value is at or below the midpoint to every magnitude above the chosen one. -/
theorem le_midpoint_above {n d m : Nat} (hd : 0 < d) (hm : unboundedMag n d < m) :
    2 * n ≤ (unitsOfMag (unboundedMag n d) + unitsOfMag m) * d ∧
      (2 * n = (unitsOfMag (unboundedMag n d) + unitsOfMag m) * d → unboundedMag n d % 2 = 0) := by
  have ⟨hg, hnormal⟩ := significand_bounds (n := n) hd
  have ⟨hle, htie, _, _⟩ := roundHalfEven_near (n := n) (d := d <<< scaleOf n d) (by rw [Nat.shiftLeft_eq]; positivity)
  have hstep : unitsOfMag (unboundedMag n d) + 2 ^ scaleOf n d ≤ unitsOfMag m :=
    (unitsOfMag_add_le_succ hg hnormal).trans (unitsOfMag_le_iff.2 hm)
  rw [unboundedMag_even_iff]
  rw [unitsOfMag_unboundedMag hd] at hstep ⊢
  generalize roundHalfEven n (d <<< scaleOf n d) = g at *
  have hmid : (2 * g + 1) * (d <<< scaleOf n d) ≤ (g * 2 ^ scaleOf n d + unitsOfMag m) * d := by
    rw [Nat.shiftLeft_eq, mul_left_comm, mul_comm d]
    exact Nat.mul_le_mul_right d (by linarith)
  exact ⟨hle.trans hmid, fun h => htie (by omega)⟩

/-- The value is at or above the midpoint to every magnitude below the chosen one. -/
theorem midpoint_below_le {n d m : Nat} (hd : 0 < d) (hm : m < unboundedMag n d) :
    (unitsOfMag m + unitsOfMag (unboundedMag n d)) * d ≤ 2 * n ∧
      ((unitsOfMag m + unitsOfMag (unboundedMag n d)) * d = 2 * n → unboundedMag n d % 2 = 0) := by
  have ⟨hg, hnormal⟩ := significand_bounds (n := n) hd
  have ⟨_, _, hle, htie⟩ := roundHalfEven_near (n := n) (d := d <<< scaleOf n d) (by rw [Nat.shiftLeft_eq]; positivity)
  have hlow := scaled_low (n := n) (d := d)
  have hlt : unitsOfMag m < unitsOfMag (unboundedMag n d) := unitsOfMag_lt_iff.2 hm
  have hstep (h : scaleOf n d = 0 ∨ 2 ^ 52 < roundHalfEven n (d <<< scaleOf n d)) :
      unitsOfMag m + 2 ^ scaleOf n d ≤ unitsOfMag (unboundedMag n d) := by
    unfold unboundedMag at hm ⊢
    generalize roundHalfEven n (d <<< scaleOf n d) = g at *
    generalize scaleOf n d = k at *
    have := unitsOfMag_add_le_succ (k := k) (g := g - 1) (by omega) (by omega)
    rw [show g - 1 + k * 2 ^ 52 + 1 = g + k * 2 ^ 52 by omega] at this
    exact (Nat.add_le_add_right (unitsOfMag_le_iff.2 (by omega)) _).trans this
  rw [unboundedMag_even_iff]
  rw [unitsOfMag_unboundedMag hd] at hlt hstep ⊢
  generalize roundHalfEven n (d <<< scaleOf n d) = g at *
  by_cases h : scaleOf n d = 0 ∨ 2 ^ 52 < g
  · have hmid : (unitsOfMag m + g * 2 ^ scaleOf n d) * d + d <<< scaleOf n d ≤ 2 * g * (d <<< scaleOf n d) := by
      rw [Nat.shiftLeft_eq, mul_comm d, ← add_mul, ← mul_assoc]
      exact Nat.mul_le_mul_right d (by linarith [hstep h])
    exact ⟨by omega, fun h => htie (by omega)⟩
  · -- The least significand of its binade: below it the spacing is halved, but the value itself is not below it.
    obtain rfl : g = 2 ^ 52 := by omega
    have hn := hlow (by omega)
    have hlt' : (unitsOfMag m + 2 ^ 52 * 2 ^ scaleOf n d) * d < 2 * (2 ^ 52 * (d * 2 ^ scaleOf n d)) := by
      rw [mul_comm d, ← mul_assoc, ← mul_assoc]
      exact Nat.mul_lt_mul_of_pos_right (by linarith) hd
    exact ⟨by omega, fun h => by omega⟩

/-- Below the rounded magnitude: an overflow only puts a smaller magnitude in the place of the one above it. -/
theorem midpoint_below_roundMag_le {n d m : Nat} (hd : 0 < d) (hm : m < roundMag n d) :
    (unitsOfMag m + unitsOfMag (roundMag n d)) * d ≤ 2 * n ∧
      ((unitsOfMag m + unitsOfMag (roundMag n d)) * d = 2 * n → roundMag n d % 2 = 0) := by
  rw [roundMag_eq_min] at *
  rcases Nat.le_total (unboundedMag n d) infMag with h | h
  · rw [min_eq_left h] at *
    exact midpoint_below_le hd hm
  · rw [min_eq_right h] at *
    exact ⟨(Nat.mul_le_mul_right d (Nat.add_le_add_left (unitsOfMag_le_iff.2 h) _)).trans
      (midpoint_below_le hd (hm.trans_le h)).1, fun _ => by decide⟩

/-- Above the rounded magnitude, up to that of an infinity: there nothing was cut. -/
theorem le_midpoint_above_roundMag {n d m : Nat} (hd : 0 < d) (hm : roundMag n d < m) (hmax : m ≤ infMag) :
    2 * n ≤ (unitsOfMag (roundMag n d) + unitsOfMag m) * d ∧
      (2 * n = (unitsOfMag (roundMag n d) + unitsOfMag m) * d → roundMag n d % 2 = 0) := by
  have hr : roundMag n d = unboundedMag n d := by rw [roundMag_eq_min] at *; omega
  rw [hr] at hm ⊢
  exact le_midpoint_above hd hm

/-- Which of two numbers is nearer is decided at their midpoint. -/
theorem abs_sub_le_iff_midpoint {n x y : Int} (h : x < y) :
    (|n - x| ≤ |n - y| ↔ 2 * n ≤ x + y) ∧ (|n - y| ≤ |n - x| ↔ x + y ≤ 2 * n) := by
  simp only [abs_eq_max_neg]
  omega

theorem unitsOfMag_mul_lt {d m m' : Nat} (hd : 0 < d) (h : m < m') :
    (unitsOfMag m : Int) * d < (unitsOfMag m' : Int) * d := by
  exact_mod_cast Nat.mul_lt_mul_of_pos_right (unitsOfMag_lt_iff.2 h) hd

/-- Settles O40: a value on the chosen magnitude's side of the midpoint is nearer to it, and on the midpoint the chosen
magnitude is even. -/
theorem roundingIsNearestEven : Obligations.RoundingIsNearestEven := by
  intro n d m hd hmax
  rcases Nat.lt_trichotomy m (roundMag n d) with hlt | rfl | hgt
  · have ⟨hside, htie⟩ := midpoint_below_roundMag_le hd hlt
    have ⟨hback, hnear⟩ := abs_sub_le_iff_midpoint (n := n) (unitsOfMag_mul_lt hd hlt)
    rw [add_mul] at hside htie
    exact ⟨hnear.2 (by exact_mod_cast hside),
      fun heq _ => htie (le_antisymm hside (by exact_mod_cast hback.1 heq.ge))⟩
  · exact ⟨le_rfl, fun _ hne => absurd rfl hne⟩
  · have ⟨hside, htie⟩ := le_midpoint_above_roundMag hd hgt hmax
    have ⟨hnear, hback⟩ := abs_sub_le_iff_midpoint (n := n) (unitsOfMag_mul_lt hd hgt)
    rw [add_mul] at hside htie
    exact ⟨hnear.2 (by exact_mod_cast hside),
      fun heq _ => htie (le_antisymm hside (by exact_mod_cast hback.1 heq.ge))⟩

/-! ### Exact integers and single rounding (R8) -/

/-- Settles O41. -/
theorem ofUintIsExact : Obligations.OfUintIsExact :=
  fun _ hn => ⟨isFinite_ofUint hn.le, unitsOf_ofUint hn.le⟩

theorem isNeg_faddFinite {a b : F} (h : unitsOf a + unitsOf b ≠ 0) :
    isNeg (faddFinite a b) = decide (unitsOf a + unitsOf b < 0) := by
  rw [faddFinite, if_neg h, isNeg_pack _ (roundMag_lt _ _)]

/-- The quotient of finite values by one that is not zero takes the last branch of `fdiv`. -/
theorem fdiv_finite {nan a b : F} (ha : isFinite a = true) (hb : isFinite b = true) (h0 : magOf b ≠ 0) :
    fdiv nan a b =
      pack (isNeg a != isNeg b) (roundMag (unitsOfMag (magOf a) * oneUnits) (unitsOfMag (magOf b))) := by
  simp [fdiv, isNaN_of_isFinite ha, isNaN_of_isFinite hb, isInf_of_isFinite ha, isInf_of_isFinite hb, h0]

/-- Settles O42: on finite operands each operation packs one rounded magnitude. -/
theorem finiteResultsAreRoundedOnce : Obligations.FiniteResultsAreRoundedOnce := by
  intro nan a b ha hb
  rw [fadd_finite ha hb, fmul_finite ha hb]
  refine ⟨magOf_faddFinite a b, isNeg_faddFinite, magOf_pack _ (roundMag_lt _ _), isNeg_pack _ (roundMag_lt _ _), ?_⟩
  intro h0
  rw [fdiv_finite ha hb h0]
  exact ⟨magOf_pack _ (roundMag_lt _ _), isNeg_pack _ (roundMag_lt _ _)⟩

/-! ### The capacity of every FLG (R6, R144, R118) -/

/-- Of every FLG, a configuration that passes the checks has a legal sample rate (R143, check 3). -/
theorem sampleRateIsLegal_of_firstFailing {pm : Parameters} {nan : F} {c : EffectConfig}
    (h : firstFailing pm nan c = .none) : sampleRateIsLegal pm c = true := by
  unfold firstFailing at h
  split_ifs at h with _ _ hrate
  simpa using hrate

/-- Settles O59: check 3 bounds the capacity by `CAP_MAX`, which the index width reaches. -/
theorem capacityFitsEveryConfiguration : Obligations.CapacityFitsEveryConfiguration := by
  intro pm nan c hdiv hwidth hpass
  obtain ⟨hcap, hpos, hle⟩ := cap_of_legal (nan := nan) hdiv hwidth (sampleRateIsLegal_of_firstFailing hpass)
  rw [hcap]
  exact ⟨rfl, hpos, hle, fun w hw => nextCursor_exact hw (hle.trans hwidth)⟩

/-! ### Decoding at every width (R71, R74, R77) -/

/-- `OPC` of an instruction (R74). -/
def opcodeOf : Instr → Nat
  | .cfgWr _ _ => 0x01
  | .cfgCommit => 0x02
  | .openStream => 0x03
  | .startStream => 0x04
  | .step _ => 0x05
  | .block _ => 0x06
  | .stopStream => 0x07
  | .closeStream => 0x08
  | .rd _ => 0x09

/-- `ARG` of an instruction (R77). -/
def argumentOf : Instr → Nat
  | .cfgWr f _ => idOfField f
  | .block xs => xs.length
  | .rd r => idOfReg r
  | _ => 0

theorem encodeWord_eq (i : Instr) (nW : Nat) : encodeWord i nW = cmdWord (opcodeOf i) (argumentOf i) nW := by
  cases i <;> rfl

theorem opcodeOf_lt (i : Instr) : opcodeOf i < 16 := by cases i <;> simp [opcodeOf]

/-- The block length fits by well-formedness, and four bits hold the ids. -/
theorem argumentOf_lt {nW : Nat} {i : Instr} (hw : 4 ≤ nW) (hwf : wellFormed i nW = true) :
    argumentOf i < 2 ^ nW := by
  have hids : 2 ^ 4 ≤ 2 ^ nW := Nat.pow_le_pow_right (by decide) hw
  cases i with
  | cfgWr f v => exact lt_of_le_of_lt (idOfField_le f) (by omega)
  | block xs => exact of_decide_eq_true hwf
  | rd r => exact lt_of_le_of_lt (idOfReg_le r) (by omega)
  | _ => exact Nat.two_pow_pos nW

/-- Every row of the decoder reads the instruction back from its own fields. -/
theorem decode_of_fields {nW : Nat} {w : CmdWord} {i : Instr} (ho : opcOf w nW = opcodeOf i)
    (ha : argOf w nW = argumentOf i) : decode w (encodeData i) nW = .ok i := by
  rw [decode_ok, ho, ha]
  cases i <;>
    simp [opcodeOf, argumentOf, encodeData, decodeCfgWr_ok, decodePlain_ok, decodeStep_ok, decodeBlock_ok, decodeRd_ok]

/-- Settles O60: the fields of the command word are the instruction's, and the decoder reads them back. -/
theorem decodeOfEncodeAtEveryWidth : Obligations.DecodeOfEncodeAtEveryWidth := by
  intro nW i hlo hhi hwf
  have ⟨ho, ha⟩ := fields_cmdWord hhi (opcodeOf_lt i) (argumentOf_lt hlo hwf)
  rw [← encodeWord_eq] at ho ha
  exact decode_of_fields ho ha

/-! ### Reset of every FLG (R6, R40) -/

/-- Settles O58: `resetWith` writes the parameters into the config registers and reads them nowhere else. -/
theorem resetTakesItsParameters : Obligations.ResetTakesItsParameters :=
  fun _ => ⟨rfl, rfl, rfl, rfl, rfl, rfl, rfl, rfl⟩

end Sys2Proof.Proofs.Scope

namespace Sys2Proof.Proofs.ArchitecturalState

/-! The state family (10_state.md): what the invariant says of a state, that every step keeps it, what each command may
write, and that `BLOCK_SIZE` is kept out of every other command. -/

open Sys2Proof Sys2Proof.Machine Sys2Proof.Laws

/-! ### The invariant holds at reset and every step keeps it (R40, R41) -/

/-- Every command keeps the invariant. -/
theorem exec_keeps_sound {i : Instr} {s t : State} (hs : sound s = true) (h : exec i s = .next t) : sound t = true := by
  cases i with
  | cfgWr f v => exact execCfgWr_keeps hs h
  | cfgCommit => exact execCfgCommit_keeps hs h
  | openStream => exact execOpen_keeps hs h
  | startStream => exact execStart_keeps hs h
  | step x => exact execStep_keeps hs h
  | block xs => exact execBlock_keeps hs h
  | stopStream => exact execStop_keeps hs h
  | closeStream => exact execClose_keeps hs h
  | rd r => exact execRd_keeps hs h

/-- Taking an event from the host's queue does not touch what makes a state sound. -/
theorem sound_pending (s : State) (p : List HostEvent) : sound { s with pending := p } = sound s := rfl

theorem sound_resetMachine (s : State) : sound (resetMachine s) = true := sound_reset _ _ _

/-- Settles O54: FLG idles, is reset, answers EILL, or executes a command on the state with the event taken. -/
theorem everyStepKeepsSoundness : Obligations.EveryStepKeepsSoundness := by
  intro s t hs h
  rcases step_next h with ⟨-, rfl⟩ | ⟨rest, -, rfl⟩ | ⟨w, d, rest, e, -, -, rfl⟩ | ⟨w, d, rest, i, -, -, hexec⟩
  · exact hs
  · exact sound_resetMachine _
  · rwa [sound_answer, sound_pending]
  · exact exec_keeps_sound (by rwa [sound_pending]) hexec

/-- Settles O53. -/
theorem resetStateIsSound : Obligations.ResetStateIsSound := sound_reset [] [] 0

/-- Settles O8: each clause is a field of `resetWith` at the parameters of R6. -/
theorem resetStateHasSpecValues : Obligations.ResetStateHasSpecValues :=
  ⟨rfl, rfl, rfl, rfl, rfl, rfl, rfl, rfl, rfl, rfl⟩

/-! ### The invariant in the terms of the spec (R32, R33, R36, R41) -/

theorem holdsEngine_iff {l : LState} : holdsEngine l = true ↔ l = .ready ∨ l = .running ∨ l = .stopped := by
  cases l <;> decide

theorem holdsDerived_iff {l : LState} : holdsDerived l = true ↔ l ≠ .idle ∧ l ≠ .error := by
  cases l <;> decide

section
variable {s : State} (hs : sound s = true)
include hs

/-- The engine state exists exactly where the lifecycle says so (R33). -/
theorem sound_engine_iff : (∃ e, s.engine = some e) ↔ holdsEngine s.lstate = true := by
  refine ⟨fun ⟨e, he⟩ => ?_, fun hl => ?_⟩
  · by_contra hl
    simp [sound_withoutEngine hs (by simpa using hl)] at he
  · obtain ⟨-, e, -, he, -, -⟩ := sound_parts hs hl
    exact ⟨e, he⟩

/-- The derived registers hold values exactly where the lifecycle says so (R32). -/
theorem sound_derived_iff : (∃ r, s.derived = some r) ↔ holdsDerived s.lstate = true := by
  refine ⟨fun ⟨r, hr⟩ => ?_, fun hl => ?_⟩
  · by_contra hl
    simp [sound_withoutDerived hs (by simpa using hl)] at hr
  · obtain ⟨r, hr, -⟩ := sound_derived hs hl
    exact ⟨r, hr⟩

/-- What derived registers there are come from a configuration that passes the checks. -/
theorem sound_derivedOk {r : Derived} (hr : s.derived = some r) : derivedOk s.cfg r = true := by
  obtain ⟨r', hr', hok⟩ := sound_derived hs ((sound_derived_iff hs).1 ⟨r, hr⟩)
  obtain rfl : r = r' := by simpa [hr] using hr'
  exact hok

/-- What engine state there is fits the capacity. -/
theorem sound_engineOk {r : Derived} {e : Engine} (hr : s.derived = some r) (he : s.engine = some e) :
    engineOk r.cap e = true := by
  obtain ⟨r', e', hr', he', -, hok⟩ := sound_parts hs ((sound_engine_iff hs).1 ⟨e, he⟩)
  obtain rfl : r = r' := by simpa [hr] using hr'
  obtain rfl : e = e' := by simpa [he] using he'
  exact hok

end

/-- I-1 and I-2 of R41, and the buffer blank from the capacity on (R51). -/
theorem engineOk_bounds {cap : Nat} {e : Engine} (h : engineOk cap e = true) :
    e.wcur < cap ∧ isFinite e.phase = true ∧ fge e.phase posZero = true ∧ flt e.phase Config.twoPi = true ∧
      ∀ i, cap ≤ i → memRead e.dbuf i = posZero := by
  simp only [engineOk, phaseOk, Bool.and_eq_true, decide_eq_true_eq] at h
  obtain ⟨⟨hbuf, hcur⟩, ⟨hfin, hlo⟩, hhi⟩ := h
  exact ⟨hcur, hfin, hlo, hhi, fun i hi => memRead_above hbuf hi⟩

/-- I-4 to I-6 of R41: what a configuration that passes the checks gives the derived registers. -/
theorem derivedOk_bounds {c : EffectConfig} {r : Derived} (h : derivedOk c r = true) :
    1 ≤ r.cap ∧ r.cap ≤ 65536 ∧ r.cap = c.sampleRate.toNat / 20 ∧ r.srF = ofUint c.sampleRate.toNat ∧
      fgt r.phaseInc posZero = true ∧ flt r.phaseInc Config.twoPi = true ∧
      isFinite c.depth = true ∧ fgt c.depth posZero = true ∧
      isFinite c.dryGain = true ∧ isFinite c.wetGain = true := by
  obtain ⟨hchecks, rfl⟩ := derivedOk_iff.1 h
  have p := passed hchecks
  have hinc := p.inc
  rw [incOk, Bool.and_eq_true] at hinc
  exact ⟨p.cap_pos, p.cap_le, p.cap_eq, rfl, hinc.1, hinc.2, p.depth_finite, (firstFailing_none.1 hchecks).2.1,
    p.dry_finite, p.wet_finite⟩

/-- Settles O56: the lifecycle tables say which parts exist, and each part that exists is sound. -/
theorem soundStatesMeetSpecInvariants : Obligations.SoundStatesMeetSpecInvariants := by
  intro s hs
  rw [sound_engine_iff hs, sound_derived_iff hs, holdsEngine_iff, holdsDerived_iff]
  exact ⟨Iff.rfl, Iff.rfl, sound_errCause hs, fun r hr => derivedOk_bounds (sound_derivedOk hs hr),
    fun r e hr he => engineOk_bounds (sound_engineOk hs hr he)⟩

/-! ### What each command may write (R21)

The frame of a command: the fields its next state may differ in. -/

section
variable {s t : State}

theorem execCfgWr_frame {f : CfgField} {v : DataWord} (h : execCfgWr f v s = .next t) :
    t = { s with cfg := t.cfg, responses := t.responses } := by
  rcases execCfgWr_next h with ⟨-, rfl⟩ | ⟨-, rfl⟩ <;> rfl

theorem execCfgCommit_frame (h : execCfgCommit s = .next t) :
    t = { s with derived := t.derived, errCause := t.errCause, lstate := t.lstate, responses := t.responses } := by
  rcases execCfgCommit_next h with ⟨-, -, rfl⟩ | ⟨-, -, rfl⟩ | ⟨-, rfl⟩ <;> rfl

theorem execOpen_frame (h : execOpen s = .next t) :
    t = { s with engine := t.engine, lstate := t.lstate, responses := t.responses } := by
  rcases execOpen_next h with ⟨-, -, rfl⟩ | ⟨-, rfl⟩ <;> rfl

theorem execStart_frame (h : execStart s = .next t) :
    t = { s with lstate := t.lstate, responses := t.responses } := by
  rcases execStart_next h with ⟨-, rfl⟩ | ⟨-, rfl⟩ <;> rfl

theorem execStop_frame (h : execStop s = .next t) :
    t = { s with lstate := t.lstate, responses := t.responses } := by
  rcases execStop_next h with ⟨-, rfl⟩ | ⟨-, rfl⟩ <;> rfl

theorem execClose_frame (h : execClose s = .next t) :
    t = { s with engine := t.engine, lstate := t.lstate, responses := t.responses } := by
  rcases execClose_next h with ⟨-, rfl⟩ | ⟨-, rfl⟩ <;> rfl

theorem execRd_frame {r : RegName} (h : execRd r s = .next t) : t = { s with responses := t.responses } := by
  rcases execRd_next h with ⟨-, v, -, rfl⟩ | ⟨-, rfl⟩ <;> rfl

theorem execStep_frame {x : F} (h : execStep x s = .next t) :
    t = { s with engine := t.engine, nanDraws := t.nanDraws, responses := t.responses } := by
  rcases execStep_next h with ⟨-, y, u, hu, rfl⟩ | ⟨-, rfl⟩
  · rw [sampleOn_frame hu]; rfl
  · rfl

theorem execBlock_frame {xs : List F} (h : execBlock xs s = .next t) :
    t = { s with engine := t.engine, nanDraws := t.nanDraws, responses := t.responses } := by
  rcases execBlock_next h with ⟨-, ys, u, hu, rfl⟩ | ⟨-, rfl⟩
  · rw [(samplesOn_frame hu).1]; rfl
  · rfl

end

/-- Settles O14: each command keeps the fields outside its frame, and the statement names every command for the fields
inside it. -/
theorem onlyNamedCommandsWrite : Obligations.OnlyNamedCommandsWrite := by
  intro i s t h
  cases i with
  | cfgWr f v =>
    rw [execCfgWr_frame h]
    exact ⟨rfl, fun hne => absurd rfl (hne f v), by simp [bufferWord]⟩
  | cfgCommit => rw [execCfgCommit_frame h]; simp [bufferWord]
  | openStream => rw [execOpen_frame h]; simp
  | startStream => rw [execStart_frame h]; simp [bufferWord]
  | stopStream => rw [execStop_frame h]; simp [bufferWord]
  | closeStream => rw [execClose_frame h]; simp
  | step x => rw [execStep_frame h]; simp
  | block xs => rw [execBlock_frame h]; simp
  | rd r => rw [execRd_frame h]; simp [bufferWord]

/-! ### Block size is inert (R28, R135)

Another value in `BLOCK_SIZE` commutes with every command but the two that name it, whatever the outcome. -/

/-- The state with another value in `BLOCK_SIZE`. -/
def withBlockSize (v : BitVec 64) (s : State) : State := { s with cfg := { s.cfg with blockSize := v } }

/-- An outcome with a change made to its next state, if it has one. -/
def mapNext (g : State → State) : Result → Result
  | .next s => .next (g s)
  | .fault f => .fault f
  | .refused r => .refused r

section
variable (v : BitVec 64) (s : State)

theorem withBlockSize_derived : (withBlockSize v s).derived = s.derived := rfl
theorem withBlockSize_engine : (withBlockSize v s).engine = s.engine := rfl
theorem withBlockSize_nanDraws : (withBlockSize v s).nanDraws = s.nanDraws := rfl

/-- The lifecycle check that every command begins with does not see the change. -/
theorem gate_withBlockSize {p : Prop} [Decidable p] {a b : Result} (hbody : b = mapNext (withBlockSize v) a) :
    (if p then b else reject (withBlockSize v s) .estate) =
      mapNext (withBlockSize v) (if p then a else reject s .estate) := by
  split
  · exact hbody
  · rfl

theorem setField_withBlockSize {f : CfgField} (hf : f ≠ .blockSize) (w : DataWord) :
    ({ withBlockSize v s with cfg := setField (withBlockSize v s).cfg f w } : State) =
      withBlockSize v { s with cfg := setField s.cfg f w } := by
  cases f with
  | blockSize => exact absurd rfl hf
  | _ => rfl

theorem execCfgWr_withBlockSize {f : CfgField} (hf : f ≠ .blockSize) (w : DataWord) :
    execCfgWr f w (withBlockSize v s) = mapNext (withBlockSize v) (execCfgWr f w s) :=
  gate_withBlockSize v s (by rw [setField_withBlockSize v s hf]; rfl)

/-- No check of CFG_COMMIT reads `BLOCK_SIZE`. -/
theorem firstFailing_withBlockSize (pm : Parameters) (nan : F) :
    firstFailing pm nan (withBlockSize v s).cfg = firstFailing pm nan s.cfg := rfl

/-- No derived register depends on `BLOCK_SIZE`. -/
theorem deriveFrom_withBlockSize (pm : Parameters) (nan : F) :
    deriveFrom pm nan (withBlockSize v s).cfg = deriveFrom pm nan s.cfg := rfl

theorem execCfgCommit_withBlockSize :
    execCfgCommit (withBlockSize v s) = mapNext (withBlockSize v) (execCfgCommit s) :=
  gate_withBlockSize v s (by
    rw [withBlockSize_nanDraws, firstFailing_withBlockSize, deriveFrom_withBlockSize]
    split <;> rfl)

theorem execOpen_withBlockSize : execOpen (withBlockSize v s) = mapNext (withBlockSize v) (execOpen s) :=
  gate_withBlockSize v s (by rw [withBlockSize_derived]; split <;> rfl)

theorem execStart_withBlockSize : execStart (withBlockSize v s) = mapNext (withBlockSize v) (execStart s) :=
  gate_withBlockSize v s rfl

theorem execStop_withBlockSize : execStop (withBlockSize v s) = mapNext (withBlockSize v) (execStop s) :=
  gate_withBlockSize v s rfl

theorem execClose_withBlockSize : execClose (withBlockSize v s) = mapNext (withBlockSize v) (execClose s) :=
  gate_withBlockSize v s rfl

theorem regValue_withBlockSize {r : RegName} (hr : r ≠ .cfg .blockSize) :
    regValue (withBlockSize v s) r = regValue s r := by
  cases r with
  | cfg f =>
    cases f with
    | blockSize => exact absurd rfl hr
    | _ => rfl
  | _ => rfl

theorem execRd_withBlockSize {r : RegName} (hr : r ≠ .cfg .blockSize) :
    execRd r (withBlockSize v s) = mapNext (withBlockSize v) (execRd r s) :=
  gate_withBlockSize v s (by rw [regValue_withBlockSize v s hr]; split <;> rfl)

/-- Of the config registers a sample reads the depth and the gains only. -/
theorem sampleEngine_withBlockSize (pm : Parameters) (r : Derived) (n : Nat) (e : Engine) (x : F) :
    sampleEngine pm (withBlockSize v s).cfg r n e x = sampleEngine pm s.cfg r n e x := rfl

theorem sampleOn_withBlockSize (pm : Parameters) (x : F) :
    sampleOn pm (withBlockSize v s) x = (sampleOn pm s x).map (Prod.map id (withBlockSize v)) := by
  simp only [sampleOn, withBlockSize_derived, withBlockSize_engine, withBlockSize_nanDraws, sampleEngine_withBlockSize]
  split
  · split <;> rfl
  · rfl

theorem samplesOn_withBlockSize (pm : Parameters) (xs : List F) :
    samplesOn pm (withBlockSize v s) xs = (samplesOn pm s xs).map (Prod.map id (withBlockSize v)) := by
  induction xs generalizing s with
  | nil => rfl
  | cons x xs ih =>
    simp only [samplesOn, sampleOn_withBlockSize]
    rcases sampleOn pm s x with f | ⟨y, t⟩
    · rfl
    · simp only [Except.map, Prod.map, ih]
      rcases samplesOn pm t xs with f | ⟨ys, u⟩ <;> rfl

theorem execStep_withBlockSize (x : F) :
    execStep x (withBlockSize v s) = mapNext (withBlockSize v) (execStep x s) :=
  gate_withBlockSize v s (by rw [sampleOn_withBlockSize]; rcases sampleOn Config.params s x with f | ⟨y, t⟩ <;> rfl)

theorem execBlock_withBlockSize (xs : List F) :
    execBlock xs (withBlockSize v s) = mapNext (withBlockSize v) (execBlock xs s) :=
  gate_withBlockSize v s
    (by rw [samplesOn_withBlockSize]; rcases samplesOn Config.params s xs with f | ⟨ys, t⟩ <;> rfl)

/-- Every command but the two that name `BLOCK_SIZE` commutes with the change. -/
theorem exec_withBlockSize {i : Instr} (hrd : i ≠ .rd (.cfg .blockSize)) (hwr : ∀ w, i ≠ .cfgWr .blockSize w) :
    exec i (withBlockSize v s) = mapNext (withBlockSize v) (exec i s) := by
  cases i with
  | cfgWr f w => exact execCfgWr_withBlockSize v s (fun hf => hwr w (by rw [hf])) w
  | cfgCommit => exact execCfgCommit_withBlockSize v s
  | openStream => exact execOpen_withBlockSize v s
  | startStream => exact execStart_withBlockSize v s
  | step x => exact execStep_withBlockSize v s x
  | block xs => exact execBlock_withBlockSize v s xs
  | stopStream => exact execStop_withBlockSize v s
  | closeStream => exact execClose_withBlockSize v s
  | rd r => exact execRd_withBlockSize v s (fun hr => hrd (by rw [hr]))

end

/-- Settles O19: the outcome of the changed state is the changed outcome. -/
theorem blockSizeIsNeverRead : Obligations.BlockSizeIsNeverRead := by
  intro i s t v hrd hwr h
  have hcomm := exec_withBlockSize v s hrd hwr
  rw [h] at hcomm
  exact hcomm

end Sys2Proof.Proofs.ArchitecturalState

namespace Sys2Proof.Proofs.Memory

/-! The memory family (20_memory.md): what one step takes and answers, the words of the delay buffer, and what a block
leaves in it. -/

open Sys2Proof Sys2Proof.Machine Sys2Proof.Laws Sys2Proof.Proofs.ArchitecturalState

/-! ### One step (R60, R70, R86) -/

/-- Settles O5: the event taken from the queue is the command that `step` executes. -/
theorem stepRunsDecodedInstruction : Obligations.StepRunsDecodedInstruction := by
  intro s w d rest i hp hd
  have hfetch : fetch Config.params s = .command { s with pending := rest } i := by
    simp only [fetch_eq, hp, hd]
  simp only [step, hfetch]

/-- Settles O9: idle and reset answer nothing, an illegal transaction EILL, and a command appends its one response. -/
theorem stepTakesOneEvent : Obligations.StepTakesOneEvent := by
  intro s t h
  rcases step_next h with ⟨hp, rfl⟩ | ⟨rest, hp, rfl⟩ | ⟨w, d, rest, e, hp, -, rfl⟩ | ⟨w, d, rest, i, hp, -, hexec⟩
  · simp [hp]
  · simp [hp]
  · simp [hp]
  · have ⟨hpending, hresponse⟩ := exec_pending hexec
    exact ⟨by simp [hp, hpending], fun _ => hresponse, fun hnone => absurd (by simp [hp]) (hnone w d)⟩

/-! ### The words of the buffer (R55) -/

/-- Settles O43: the three laws of a write on a canonical list. -/
theorem readGivesWordLastWritten : Obligations.ReadGivesWordLastWritten := fun _ m i v hm hi =>
  ⟨memRead_memWrite_same hm i v, fun _ ha => memRead_memWrite_ne m v ha, memWf_memWrite hm hi v⟩

/-! ### The contents law (R65) -/

/-- Wherever the cursor stands, behind it in OPEN's buffer is `+0.0`. -/
theorem history_blankBuffer {e : Engine} (h : e.dbuf = blankBuffer) (cap k : Nat) : history cap e k = posZero := by
  rw [history, h]
  rfl

/-- Settles O44: the history law of a block, from a silent history and cursor 0. -/
theorem bufferHoldsLastInputs : Obligations.BufferHoldsLastInputs := by
  intro s r xs hs hl hr he
  obtain ⟨ys, t, hblock, -⟩ := samplesOn_sound xs hs hl
  obtain ⟨e, hte, -, hcursor, hhistory⟩ := history_block xs hs hl hr he hblock
  refine ⟨_, e, execBlock_running hl hblock, hte, ?_, fun k hk hk' => ?_⟩
  · rw [hcursor, show openedEngine.wcur = 0 from rfl, Nat.zero_add]
  · rw [← history, hhistory k hk hk', history_blankBuffer rfl]
    rfl

/-! ### Rotation invariance (R66)

Two engines whose buffers read the same from their cursors back answer every sample alike and stay so related. -/

/-- One engine is the other rotated: the same phase, and the same words behind the cursors. -/
structure Rotated (cap : Nat) (e e' : Engine) : Prop where
  phase : e.phase = e'.phase
  history : ∀ k, 1 ≤ k → k ≤ cap → history cap e k = history cap e' k

section
variable {c : EffectConfig} {r : Derived} {e e' : Engine}

theorem engineOk_withCursor {cap w : Nat} (h : engineOk cap e = true) (hw : w < cap) :
    engineOk cap { e with wcur := w } = true := by
  simp only [engineOk, Bool.and_eq_true, decide_eq_true_eq] at h ⊢
  exact ⟨⟨h.1.1, hw⟩, h.2⟩

/-- The delay path sees the phase only (R120). -/
theorem nextDelay_rotated {cap : Nat} (h : Rotated cap e e') (n : Nat) : nextDelay c r n e = nextDelay c r n e' := by
  rw [nextDelay, h.phase, ← nextDelay]

/-- A tap is a word of the history (R121). -/
theorem tap_rotated {cap d : Nat} (h : Rotated cap e e') (hd : d < cap) :
    memRead e.dbuf (readIndex cap e.wcur d) = memRead e'.dbuf (readIndex cap e'.wcur d) := by
  rw [tap_eq_history, tap_eq_history]
  exact h.history _ (by split <;> omega) (by split <;> omega)

/-- Writing the same input at both cursors and advancing them keeps the relation (R117, R118). -/
theorem rotated_write {cap : Nat} {x ph : F} (h : Rotated cap e e') (he : engineOk cap e = true)
    (he' : engineOk cap e' = true) (hcap : cap ≤ 65536) :
    Rotated cap ⟨memWrite e.dbuf e.wcur x, nextCursor cap e.wcur, ph⟩
      ⟨memWrite e'.dbuf e'.wcur x, nextCursor cap e'.wcur, ph⟩ := by
  simp only [engineOk, Bool.and_eq_true, decide_eq_true_eq] at he he'
  obtain ⟨⟨hm, hw⟩, -⟩ := he
  obtain ⟨⟨hm', hw'⟩, -⟩ := he'
  obtain ⟨hnew, hold⟩ := history_sample (x := x) (ph := ph) hm hw hcap
  obtain ⟨hnew', hold'⟩ := history_sample (x := x) (ph := ph) hm' hw' hcap
  refine ⟨rfl, fun k hk hk' => ?_⟩
  obtain rfl | ⟨j, hj, rfl⟩ : k = 1 ∨ ∃ j, 1 ≤ j ∧ k = j + 1 := by
    rcases hk.eq_or_lt with h1 | h1
    · exact .inl h1.symm
    · exact .inr ⟨k - 1, by omega, by omega⟩
  · rw [hnew, hnew']
  · rw [hold j hj hk', hold' j hj hk', h.history j hj (by omega)]

/-- One sample on rotated engines gives the same output and count of draws, and rotated engines. -/
theorem sampleEngine_rotated (n : Nat) (x : F) (hr : derivedOk c r = true) (he : engineOk r.cap e = true)
    (he' : engineOk r.cap e' = true) (h : Rotated r.cap e e') :
    ∃ q f', sampleEngine Config.params c r n e x = .ok q ∧
      sampleEngine Config.params c r n e' x = .ok { q with engine := f' } ∧ Rotated r.cap q.engine f' := by
  obtain ⟨d, hd, hlt, hq⟩ := sampleEngine_sound n x hr he
  obtain ⟨d', hd', -, hq'⟩ := sampleEngine_sound n x hr he'
  obtain rfl : d = d' := by simpa [hd, hd'] using nextDelay_rotated (c := c) (r := r) h n
  rw [← tap_rotated h hlt, ← h.phase] at hq'
  exact ⟨_, _, hq, hq', rotated_write h he he' (cap_bounds hr).2⟩

/-- A block on two states that differ in their rotated engines only answers the same outputs. -/
theorem samplesOn_rotated (xs : List F) : ∀ {s : State} {e e' : Engine}, s.derived = some r →
    derivedOk s.cfg r = true → engineOk r.cap e = true → engineOk r.cap e' = true → Rotated r.cap e e' →
    ∃ ys t u, samplesOn Config.params { s with engine := some e } xs = .ok (ys, t) ∧
      samplesOn Config.params { s with engine := some e' } xs = .ok (ys, u) := by
  induction xs with
  | nil => intro s e e' _ _ _ _ _; exact ⟨[], _, _, rfl, rfl⟩
  | cons x xs ih =>
    intro s e e' hr hok he he' h
    obtain ⟨q, f', hq, hq', hrot⟩ := sampleEngine_rotated s.nanDraws x hok he he' h
    obtain ⟨ys, t, u, hrest, hrest'⟩ := ih (s := { s with nanDraws := q.draws }) hr hok
      (sampleEngine_keeps hok he hq) (sampleEngine_keeps hok he' hq') hrot
    exact ⟨q.out :: ys, t, u,
      samplesOn_cons.2 ⟨q.out, _, ys, sampleOn_ok.2 ⟨r, e, q, hr, rfl, hq, rfl, rfl⟩, hrest, rfl⟩,
      samplesOn_cons.2 ⟨q.out, _, ys, sampleOn_ok.2 ⟨r, e', _, hr, rfl, hq', rfl, rfl⟩, hrest', rfl⟩⟩

end

/-- A blank buffer is its own rotation, whatever the cursors. -/
theorem rotated_openedEngine (cap w : Nat) : Rotated cap openedEngine { openedEngine with wcur := w } :=
  ⟨rfl, fun k _ _ => by rw [history_blankBuffer rfl, history_blankBuffer rfl]⟩

/-- Settles O45: OPEN's engine state with another cursor is that engine state rotated. -/
theorem outputsIgnoreInitialCursor : Obligations.OutputsIgnoreInitialCursor := by
  intro s r w xs hs hl hr he hw
  have heng := sound_engineOk hs hr he
  obtain ⟨ys, t, u, hblock, hblock'⟩ := samplesOn_rotated xs hr (sound_derivedOk hs hr) heng
    (engineOk_withCursor heng hw) (rotated_openedEngine r.cap w)
  rw [← he] at hblock
  obtain ⟨-, -, -, -, -, hresp⟩ := samplesOn_fields hblock
  obtain ⟨-, -, -, -, -, hresp'⟩ := samplesOn_fields hblock'
  exact ⟨_, _, ys, execBlock_running hl hblock, execBlock_running hl hblock', by simp [hresp], by simp [hresp']⟩

end Sys2Proof.Proofs.Memory

namespace Sys2Proof.Proofs.Encoding

/-! The encoding family (30_encoding.md): the decoder and the encoder are inverse, the transactions that spell no
command and their answer, and the shape of a response. -/

open Sys2Proof Sys2Proof.Machine Sys2Proof.Laws Sys2Proof.Proofs.Scope

/-! ### Decoder and encoder are inverse (R71, R74, R77, R78) -/

/-- Settles O1: the round trip of every width, at the spec's 24 bits. -/
theorem decodeOfEncodeIsInstruction : Obligations.DecodeOfEncodeIsInstruction :=
  fun i hwf => decodeOfEncodeAtEveryWidth Config.nW i (by decide) (by decide) hwf

/-- A transaction spells an instruction exactly when both fields of its word and its data words are the
instruction's, at any `N_W`. -/
theorem decode_ok_iff_fields {nW : Nat} {w : CmdWord} {d : List DataWord} {i : Instr} :
    decode w d nW = .ok i ↔ opcOf w nW = opcodeOf i ∧ argOf w nW = argumentOf i ∧ d = encodeData i := by
  constructor
  · intro h
    simp only [decode_ok, decodeCfgWr_ok, decodePlain_ok, decodeStep_ok, decodeBlock_ok, decodeRd_ok] at h
    rcases h with ⟨ho, f, v, ha, rfl, rfl⟩ | ⟨ho, ha, rfl, rfl⟩ | ⟨ho, ha, rfl, rfl⟩ | ⟨ho, ha, rfl, rfl⟩ |
      ⟨ho, x, ha, rfl, rfl⟩ | ⟨ho, ha, rfl⟩ | ⟨ho, ha, rfl, rfl⟩ | ⟨ho, ha, rfl, rfl⟩ | ⟨ho, r, ha, rfl, rfl⟩
    all_goals exact ⟨ho, by simp [argumentOf, ha], rfl⟩
  · rintro ⟨ho, ha, rfl⟩
    exact decode_of_fields ho ha

/-- The one check of well-formedness, the length of a block, is met by what fits the `ARG` field. -/
theorem wellFormed_of_argumentOf_lt {nW : Nat} {i : Instr} (h : argumentOf i < 2 ^ nW) : wellFormed i nW = true := by
  cases i with
  | block xs => exact decide_eq_true h
  | _ => rfl

/-- Settles O2: the decoded instruction has the fields of the word, and a word is its fields. -/
theorem encodeOfDecodedIsTransaction : Obligations.EncodeOfDecodedIsTransaction := by
  intro w d i h
  obtain ⟨ho, ha, rfl⟩ := decode_ok_iff_fields.1 h
  have hword : encodeWord i = w := by rw [encodeWord_eq, ← ho, ← ha, cmdWord_fields]
  exact ⟨wellFormed_of_argumentOf_lt (ha ▸ argOf_lt w), Prod.ext hword rfl⟩

/-! ### Transactions that spell no command (R80) -/

/-- The decoder is total (R81): it refuses what spells no command. -/
theorem decode_isError {w : CmdWord} {d : List DataWord} : (∃ e, decode w d = .error e) ↔ ¬ ∃ i, decode w d = .ok i := by
  cases decode w d <;> simp

/-- A refused transaction is taken from the queue and answered EILL, whatever the lifecycle state (R86). -/
theorem step_illegal {s : State} {w : CmdWord} {d : List DataWord} {rest : List HostEvent} {e : DecodeError}
    (hp : s.pending = .command w d :: rest) (he : decode w d = .error e) :
    step s = reject { s with pending := rest } .eill := by
  have hfetch : fetch Config.params s = .illegal { s with pending := rest } e := by simp only [fetch_eq, hp, he]
  simp only [step, hfetch]

/-- Settles O3: opcode by opcode, the five cases are the complement of what its row of the opcode map accepts. -/
theorem reservedTransactionsAnswerEill : Obligations.ReservedTransactionsAnswerEill := by
  refine ⟨fun w d => ?_, fun s w d rest e hp he => step_illegal hp he⟩
  rw [decode_isError, decode_isOk]
  generalize opcOf w = o, argOf w = a, d.length = n
  obtain hreserved | hopcode := Nat.lt_or_ge 9 o
  · split_ifs <;> omega
  · interval_cases o <;> simp <;> omega

/-! ### The shape of a response (R73, R77, R78) -/

/-- Settles O15: a rejected command answers ESTATE, a completed one OK with its `nout` words, a failed CFG_COMMIT
ECFG. -/
theorem responsesHaveTheirShape : Obligations.ResponsesHaveTheirShape := by
  refine ⟨⟨rfl, rfl, rfl, rfl⟩, fun i s t h => ?_⟩
  rcases exec_next h with ⟨-, rfl⟩ | ⟨-, -, -, d, hresponse, hlength⟩ | ⟨-, hi, -, -, hresponse, -⟩
  · exact ⟨.estate, [], rfl, by simp⟩
  · exact ⟨.ok, d, hresponse, by simp [hlength]⟩
  · exact ⟨.ecfg, [], hresponse, by simp [hi]⟩

/-! ### The words of V-ENC -/

/-- Settles O4: both fields of each word are the ones V-ENC's instruction has. -/
theorem specWordsDecode : Obligations.SpecWordsDecode := by
  unfold Obligations.SpecWordsDecode
  simp only [decode_ok_iff_fields]
  decide

end Sys2Proof.Proofs.Encoding

namespace Sys2Proof.Proofs.Oscillator

/-! The oscillator family (41_lfo.md): the sine, the factor, the exact wrap and the phase invariant. -/

open Sys2Proof Sys2Proof.Machine Sys2Proof.Laws

/-! ### The wrap subtraction (R102)

It does not round, by Sterbenz' lemma: from `b` up every value is a multiple of the spacing at `b`, and a difference of
at most `b` is a multiple of that spacing by a significand of 53 bits. -/

/-- The spacing at a magnitude divides every magnitude from there up. -/
theorem spacing_dvd_unitsOfMag {m m' : Nat} (h : m ≤ m') : 2 ^ (m / 2 ^ 52 - 1) ∣ unitsOfMag m' := by
  have hexp : m / 2 ^ 52 - 1 ≤ m' / 2 ^ 52 - 1 := Nat.sub_le_sub_right (Nat.div_le_div_right h) 1
  rw [unitsOfMag_eq]
  split
  · rw [show m / 2 ^ 52 - 1 = 0 by omega]
    exact one_dvd _
  · exact dvd_mul_of_dvd_right (Nat.pow_dvd_pow 2 hexp) _

/-- A magnitude is a significand of 53 bits in its own spacing. -/
theorem unitsOfMag_le_spacing (m : Nat) : unitsOfMag m ≤ 2 ^ 53 * 2 ^ (m / 2 ^ 52 - 1) := by
  rw [unitsOfMag_eq]
  split
  · rw [show m / 2 ^ 52 - 1 = 0 by omega]
    omega
  · exact Nat.mul_le_mul_right _ (by omega)

/-- A multiple of a finite magnitude's spacing that is at most the magnitude is representable. -/
theorem unitsOfMag_roundMag_of_spacing_dvd {n m : Nat} (hm : m < infMag) (hdvd : 2 ^ (m / 2 ^ 52 - 1) ∣ n)
    (hle : n ≤ unitsOfMag m) : unitsOfMag (roundMag n 1) = n := by
  obtain ⟨g, rfl⟩ := hdvd
  have hg : g ≤ 2 ^ 53 := by
    refine Nat.le_of_mul_le_mul_left ?_ (Nat.two_pow_pos (m / 2 ^ 52 - 1))
    rw [mul_comm _ (2 ^ 53)]
    exact hle.trans (unitsOfMag_le_spacing m)
  have hexp : m / 2 ^ 52 - 1 ≤ 2045 := by rw [infMag_eq] at hm; omega
  have hround := unitsOfMag_roundMag hg hexp 1 one_pos
  rwa [mul_one, mul_comm g] at hround

/-- A sum that is not negative denotes its rounded magnitude. -/
theorem unitsOf_faddFinite {a b : F} (h : 0 ≤ unitsOf a + unitsOf b) :
    unitsOf (faddFinite a b) = unitsOfMag (roundMag (unitsOf a + unitsOf b).natAbs 1) := by
  have hkey := orderKey_faddFinite h
  rw [orderKey_nonneg_units (hkey ▸ Int.natCast_nonneg _), hkey, Int.toNat_natCast]

/-- A difference of finite values is the finite sum with the second negated (R8). -/
theorem fsub_finite {nan a b : F} (ha : isFinite a = true) (hb : isFinite b = true) :
    fsub nan a b = faddFinite a (fneg b) := fadd_finite ha (isFinite_fneg hb)

theorem natAbs_unitsOf (a : F) : (unitsOf a).natAbs = unitsOfMag (magOf a) := by
  unfold unitsOf
  split <;> simp

/-- Sterbenz' lemma: for `0 <= b <= a <= 2*b` the difference is exact. -/
theorem unitsOf_fsub_exact {nan a b : F} (ha : isFinite a = true) (hb : isFinite b = true)
    (hlo : unitsOf b ≤ unitsOf a) (hhi : unitsOf a ≤ 2 * unitsOf b) :
    unitsOf (fsub nan a b) = unitsOf a - unitsOf b := by
  have hdiff : unitsOf a + unitsOf (fneg b) = unitsOf a - unitsOf b := by rw [unitsOf_fneg, sub_eq_add_neg]
  have hmag : (unitsOf a - unitsOf b).natAbs = unitsOfMag (magOf a) - unitsOfMag (magOf b) := by
    rw [← natAbs_unitsOf, ← natAbs_unitsOf]; omega
  have hle : magOf b ≤ magOf a := by
    rw [← unitsOfMag_le_iff, ← natAbs_unitsOf, ← natAbs_unitsOf]; omega
  have hround : unitsOfMag (roundMag (unitsOf a - unitsOf b).natAbs 1) = (unitsOf a - unitsOf b).natAbs := by
    refine unitsOfMag_roundMag_of_spacing_dvd ((isFinite_iff b).1 hb) ?_ (by rw [← natAbs_unitsOf]; omega)
    rw [hmag]
    exact Nat.dvd_sub (spacing_dvd_unitsOfMag hle) (spacing_dvd_unitsOfMag le_rfl)
  rw [fsub_finite ha hb, unitsOf_faddFinite (by omega), hdiff, hround]
  omega

/-- Settles O39: `[TWO_PI, 2*TWO_PI]` is the range of Sterbenz' lemma, and all of it wraps. -/
theorem wrapSubtractionIsExact : Obligations.WrapSubtractionIsExact := by
  intro nan p hlo hhi
  change fge p Config.twoPi = true at hlo
  rw [wrapPhase_eq, if_pos hlo]
  obtain ⟨-, -, hklo⟩ := fge_iff.1 hlo
  obtain ⟨-, -, hkhi⟩ := fge_iff.1 hhi
  have htop : orderKey 0x402921FB54442D18 = (0x401921FB54442D18 + 2 ^ 52 : Nat) := by decide
  have hfin : isFinite p = true :=
    isFinite_of_orderKey (le_trans (by decide) hklo) (hkhi.trans_lt (by decide))
  refine unitsOf_fsub_exact hfin isFinite_twoPi ((unitsOf_le_iff _ _).2 hklo) ?_
  calc unitsOf p ≤ unitsOf 0x402921FB54442D18 := (unitsOf_le_iff _ _).2 hkhi
    _ = 2 * unitsOf Config.twoPi := by
      rw [orderKey_nonneg_units (by decide), htop, Int.toNat_natCast, unitsOfMag_double (by norm_num), unitsOf_twoPi,
        Nat.cast_mul, Nat.cast_two]

/-! ### The factor and the phase in range (R104, R106) -/

/-- Settles O35. -/
theorem factorLiesBetweenZeroAndTwo : Obligations.FactorLiesBetweenZeroAndTwo := by
  intro nan p hp
  obtain ⟨hfin, hsign, hle⟩ := lfoFactor_range nan hp
  exact ⟨hfin, hsign, fge_iff.2 ⟨by decide, isNaN_of_isFinite hfin, hle⟩⟩

/-- Settles O37: the hypotheses and the conclusion are the phase and increment invariants (R41), part by part. -/
theorem phaseStaysInRange : Obligations.PhaseStaysInRange := by
  intro nan p inc hfin hge hlt hpos hbelow
  have hp : phaseOk p = true := by simp only [phaseOk, Bool.and_eq_true]; exact ⟨⟨hfin, hge⟩, hlt⟩
  have hinc : incOk inc = true := by simp only [incOk, Bool.and_eq_true]; exact ⟨hpos, hbelow⟩
  have hnext := lfoPhase_sound nan hp hinc
  simp only [phaseOk, Bool.and_eq_true] at hnext
  exact and_assoc.1 hnext

/-! ### The sine, the first factor and the exact landing (R103, R100, R102) -/

/-- Settles O34: the model's sine is admissible. -/
theorem sineHasItsProperties : Obligations.SineHasItsProperties := by
  refine ⟨sine_posZero, fun x hfin hge hle => ?_⟩
  obtain ⟨hnan, hlo, hhi, herr⟩ := (sine_admissible x).2 hfin hge hle
  have heps : ((Config.sinEps : Rat) : ℝ) = 1 / 2 ^ 52 := by rw [Config.sinEps]; push_cast; rfl
  exact ⟨hnan, hlo, hhi, heps ▸ herr⟩

/-- `1.0` is representable, so adding `+0.0` rounds nothing. -/
theorem fadd_one_posZero (nan : F) : fadd nan one posZero = one := by
  rw [fadd_finite isFinite_one isFinite_posZero]
  decide +kernel

/-- Settles O36: the sine of `+0.0` adds nothing to `1.0`. -/
theorem firstFactorIsOne : Obligations.FirstFactorIsOne := by
  intro nan
  change lfoFactor Config.params nan posZero = one
  rw [lfoFactor_eq, sine_posZero, fadd_one_posZero]

/-- A finite value less itself is `+0.0`. -/
theorem fsub_self {nan a : F} (ha : isFinite a = true) : fsub nan a a = posZero := by
  have hzero : unitsOf a + unitsOf (fneg a) = 0 := by rw [unitsOf_fneg, add_neg_cancel]
  have hsign : isNeg (fneg a) = !isNeg a := isNeg_pack _ (magOf_lt a)
  rw [fsub_finite ha ha, faddFinite, if_pos hzero, hsign, Bool.and_not_self]
  rfl

/-- Equality wraps, and leaves no excess (90_conflicts.md C1). -/
theorem wrapPhase_twoPi (nan : F) : wrapPhase Config.params nan Config.twoPi = posZero := by
  rw [wrapPhase_eq, if_pos (by decide), fsub_self isFinite_twoPi]

/-- Settles O38: the sum of V-LFO-3's call 4 is evaluated, and a phase of `TWO_PI` wraps to `+0.0`. -/
theorem exactLandingWrapsToZero : Obligations.ExactLandingWrapsToZero := by
  intro nan
  have hsum : fadd nan 0x4012D97C7F3321D2 0x3FF921FB54442D18 = Config.twoPi := by
    rw [fadd_finite (by decide) (by decide)]
    decide +kernel
  refine ⟨hsum, ?_⟩
  rw [lfoPhase_eq, hsum, wrapPhase_twoPi]
  rfl

end Sys2Proof.Proofs.Oscillator

namespace Sys2Proof.Proofs.EngineStep

/-! The engine family (42_engine_step.md): the delay of a sample, the index it is read at, the seven steps of STEP, and
the tap seen as an earlier input. -/

open Sys2Proof Sys2Proof.Machine Sys2Proof.Laws Sys2Proof.Proofs.ArchitecturalState Sys2Proof.Proofs.Memory

/-! ### The delay (R113, R114, R125) -/

/-- Step 3 clamps a product of at least `CAP-1` and takes the floor of any other. -/
theorem delaySamples_ok {cap d : Nat} {u : F} : delaySamples cap u = .ok d ↔
    (fge u (ofUint (cap - 1)) = true → d = cap - 1) ∧ (fge u (ofUint (cap - 1)) = false → ffloorInt u = some d) := by
  unfold delaySamples
  cases fge u (ofUint (cap - 1)) with
  | true => simp [eq_comm]
  | false => cases ffloorInt u <;> simp

/-- Step 3 faults on what is neither clamped nor has a floor. -/
theorem delaySamples_internalNan {cap : Nat} {u : F} (hclamp : fge u (ofUint (cap - 1)) = false)
    (hfloor : fge u posZero = false) : delaySamples cap u = .error .internalNan := by
  rw [delaySamples, hclamp, ffloorInt, hfloor, Bool.and_false]
  rfl

/-- A NaN or a value below zero is not at or above any value that is not negative. -/
theorem fge_eq_false_of_nan_or_neg {u b : F} (hb : isNeg b = false) (hu : isNaN u = true ∨ flt u posZero = true) :
    fge u b = false := by
  refine Bool.eq_false_iff.2 fun hge => ?_
  obtain ⟨hnan, -, hle⟩ := fge_iff.1 hge
  rcases hu with hnan' | hlt
  · simp [hnan'] at hnan
  · obtain ⟨-, -, hneg⟩ := flt_iff.1 hlt
    rw [orderKey_posZero] at hneg
    rw [orderKey_of_pos hb] at hle
    omega

/-- Settles O57: such a product is not clamped and has no floor. -/
theorem nanOrNegativeProductFaults : Obligations.NanOrNegativeProductFaults := fun _ _ _ _ hu =>
  delaySamples_internalNan (fge_eq_false_of_nan_or_neg (isNeg_ofUint _) hu) (fge_eq_false_of_nan_or_neg rfl hu)

/-- A product of at least `n` that is not negative has a floor of at least `n`. -/
theorem le_floor_of_fge_ofUint {u : F} {n : Nat} (hn : n ≤ 2 ^ 53) (hs : isNeg u = false)
    (hge : fge u (ofUint n) = true) : n ≤ unitsOfMag (magOf u) / oneUnits := by
  obtain ⟨-, -, hle⟩ := fge_iff.1 hge
  rw [orderKey_of_pos hs, orderKey_of_pos (isNeg_ofUint n), Int.ofNat_le] at hle
  rw [Nat.le_div_iff_mul_le oneUnits_pos, ← unitsOfMag_ofUint hn, ← magOf_ofUint]
  exact unitsOfMag_le_iff.2 hle

/-- Settles O29: the product is no NaN and not negative, and where it is at least `CAP-1` so is its floor. -/
theorem delayIsClampedFloor : Obligations.DelayIsClampedFloor := by
  intro c r n e hr hp
  obtain ⟨hnan, hsign⟩ := nextProduct_range n hr hp
  obtain ⟨hpos, hcap⟩ := cap_bounds hr
  obtain ⟨d, hd, hlt, hclamp, hfloor⟩ := delaySamples_range hpos (by omega) hnan hsign
  refine ⟨hnan, hsign, d, hd, by omega, fun hfin => ?_, fun hinf => ?_⟩
  · cases hge : fge (nextProduct c r n e) (ofUint (r.cap - 1)) with
    | true =>
      have := le_floor_of_fge_ofUint (by omega) hsign hge
      have := hclamp hge
      omega
    | false =>
      obtain ⟨-, hd'⟩ := hfloor hge
      omega
  · refine hclamp (by_contra fun hge => ?_)
    obtain ⟨hfin, -⟩ := hfloor (Bool.eq_false_iff.2 hge)
    simp [isInf_of_isFinite hfin] at hinf

/-! ### The read index (R115) -/

theorem readIndex_zero {cap w : Nat} (hw : w < cap) : readIndex cap w 0 = w := by
  rw [readIndex, Nat.sub_zero, Nat.add_mod_right, Nat.mod_eq_of_lt hw]

/-- A cursor at or beyond the delay is read behind; a cursor short of it is read from the other end of the buffer. -/
theorem readIndex_eq {cap w d : Nat} (hw : w < cap) (hd : d < cap) :
    readIndex cap w d = if d ≤ w then w - d else w + cap - d := by
  rw [readIndex]
  split
  · rw [show w + cap - d = w - d + cap by omega, Nat.add_mod_right, Nat.mod_eq_of_lt (by omega)]
  · exact Nat.mod_eq_of_lt (by omega)

/-- Settles O30. -/
theorem readIndexIsInRange : Obligations.ReadIndexIsInRange := by
  intro cap w d hw hd
  refine ⟨?_, readIndex_lt (by omega), ?_⟩
  · rw [readIndex, Int.natCast_mod, Nat.cast_sub (by omega), Nat.cast_add]
    congr 1
    ring
  · rw [readIndex_eq hw hd]
    split <;> omega

/-! ### The seven steps of STEP (R110) -/

section
variable {s : State} {e : Engine} (he : s.engine = some e)
include he

theorem cursorOf_eq : cursorOf s = some e.wcur := by rw [cursorOf, he]; rfl

theorem bufferWord_eq (i : Nat) : bufferWord s i = some (memRead e.dbuf i) := by rw [bufferWord, he]; rfl

end

/-- The output of the next sample for a delay `d` (R115, R116). -/
def outputFor (s : State) (r : Derived) (e : Engine) (x : F) (d : Nat) : F :=
  mix (drawNaN s.nanDraws) s.cfg x (memRead e.dbuf (readIndex r.cap e.wcur d))

/-- What the next sample leaves for a delay `d`: the input written back, the cursor and the phase advanced (R100, R117,
R118), a draw spent on a NaN output, and the rest as it was. -/
def afterSample (s : State) (r : Derived) (e : Engine) (x : F) (d : Nat) : State :=
  { s with
    engine := some ⟨memWrite e.dbuf e.wcur x, (e.wcur + 1) % r.cap,
      lfoPhase Config.params (drawNaN s.nanDraws) e.phase r.phaseInc⟩
    nanDraws := spendDraw s.nanDraws (outputFor s r e x d) }

/-- What STEP leaves for a delay `d`: the sample's state, with its output answered. -/
def afterStep (s : State) (r : Derived) (e : Engine) (x : F) (d : Nat) : State :=
  (afterSample s r e x d).answer .ok [outputFor s r e x d]

section
variable {s : State} (hs : sound s = true)
include hs

/-- In a sound running state the derived registers and the engine state hold values. -/
theorem running_parts (hl : s.lstate = .running) : ∃ r e, s.derived = some r ∧ s.engine = some e := by
  obtain ⟨r, e, hr, he, -, -⟩ := sound_parts hs (by rw [hl]; rfl)
  exact ⟨r, e, hr, he⟩

variable {r : Derived} {e : Engine} (hr : s.derived = some r) (he : s.engine = some e)
include hr he

theorem sound_phaseOk : phaseOk e.phase = true := by
  have hok := sound_engineOk hs hr he
  simp only [engineOk, Bool.and_eq_true] at hok
  exact hok.2

/-- The next sample has a delay, and it lies in the buffer (R114, R125). -/
theorem exists_nextDelay : ∃ d, nextDelay s.cfg r s.nanDraws e = .ok d ∧ d < r.cap :=
  nextDelay_sound s.nanDraws (sound_derivedOk hs hr) (sound_phaseOk hs hr he)

variable {d : Nat} (hl : s.lstate = .running) (hd : nextDelay s.cfg r s.nanDraws e = .ok d)
include hl hd

/-- One sample completes with the delay that steps 1 to 3 give. -/
theorem sampleOn_eq (x : F) :
    sampleOn Config.params s x = .ok (outputFor s r e x d, afterSample s r e x d) := by
  obtain ⟨r', e', d', hr', he', hd', -, hsample⟩ := sampleOn_sound x hs hl
  obtain rfl : r = r' := by simpa [hr] using hr'
  obtain rfl : e = e' := by simpa [he] using he'
  obtain rfl : d = d' := by simpa [hd] using hd'
  obtain ⟨hw, -⟩ := engineOk_bounds (sound_engineOk hs hr he)
  rwa [nextCursor_eq hw (cap_bounds (sound_derivedOk hs hr)).2] at hsample

/-- STEP completes with the delay that steps 1 to 3 give. -/
theorem exec_step_eq (x : F) : exec (.step x) s = .next (afterStep s r e x d) :=
  execStep_running hl (sampleOn_eq hs hr he hl hd x)

end

/-- What a STEP that answered in a sound running state has done. -/
theorem exec_step_next {s t : State} {x : F} (hs : sound s = true) (hl : s.lstate = .running)
    (h : exec (.step x) s = .next t) : ∃ r e d, s.derived = some r ∧ s.engine = some e ∧ t = afterStep s r e x d := by
  obtain ⟨r, e, hr, he⟩ := running_parts hs hl
  obtain ⟨d, hd, -⟩ := exists_nextDelay hs hr he
  rw [exec_step_eq hs hr he hl hd] at h
  cases h
  exact ⟨r, e, d, hr, he, rfl⟩

/-- Outside RUNNING STEP is rejected (R140). -/
theorem exec_step_rejected {s : State} (hl : s.lstate ≠ .running) (x : F) :
    exec (.step x) s = .next (s.answer .estate []) := if_neg hl

/-- Settles O25: the values of the seven steps are what `nextProduct`, `lfoPhase` and `outputFor` unfold to. -/
theorem stepComputesOneSample : Obligations.StepComputesOneSample := by
  refine fun s x => ⟨fun hs hl => ?_, fun hl => exec_step_rejected hl x⟩
  obtain ⟨r, e, hr, he⟩ := running_parts hs hl
  obtain ⟨d, hd, -⟩ := exists_nextDelay hs hr he
  obtain ⟨hclamp, hfloor⟩ := delaySamples_ok.1 hd
  exact ⟨r, e, lfoFactor Config.params (drawNaN s.nanDraws) e.phase, nextProduct s.cfg r s.nanDraws e,
    fadd (drawNaN s.nanDraws) e.phase r.phaseInc, lfoPhase Config.params (drawNaN s.nanDraws) e.phase r.phaseInc,
    outputFor s r e x d, d, spendDraw s.nanDraws (outputFor s r e x d), hr, he, rfl, rfl, rfl, rfl, hclamp, hfloor, rfl,
    exec_step_eq hs hr he hl hd x⟩

/-- Settles O26: the one write of the sample is the input, at the cursor it found. -/
theorem inputIsWrittenBack : Obligations.InputIsWrittenBack := by
  intro s t x hs hl h
  obtain ⟨r, e, d, hr, he, rfl⟩ := exec_step_next hs hl h
  have hok := sound_engineOk hs hr he
  simp only [engineOk, Bool.and_eq_true] at hok
  obtain ⟨⟨hbuf, -⟩, -⟩ := hok
  refine ⟨e.wcur, cursorOf_eq he, ?_, fun i hi => ?_⟩
  · rw [bufferWord_eq rfl, memRead_memWrite_same hbuf]
  · rw [bufferWord_eq rfl, bufferWord_eq he, memRead_memWrite_ne _ _ hi]

/-- Settles O27: the remainder by the capacity acts at the last index only. -/
theorem cursorAdvancesByOne : Obligations.CursorAdvancesByOne := by
  intro s t x hs hl h
  obtain ⟨r, e, d, hr, he, rfl⟩ := exec_step_next hs hl h
  obtain ⟨hw, -⟩ := engineOk_bounds (sound_engineOk hs hr he)
  refine ⟨r.cap, e.wcur, (e.wcur + 1) % r.cap, by rw [capOf, hr]; rfl, cursorOf_eq he, rfl, rfl,
    fun hlast => ?_, fun hinner => Nat.mod_eq_of_lt (by omega), Nat.mod_lt _ (by omega)⟩
  rw [hlast, Nat.mod_self]

/-- One sample stores at the cursor and nowhere else (R117). -/
theorem sampleOn_bufferWord {s t : State} {x y : F} (h : sampleOn Config.params s x = .ok (y, t)) {w i : Nat}
    (hw : cursorOf s = some w) (hi : i ≠ w) : bufferWord t i = bufferWord s i := by
  obtain ⟨r, e, e', -, he, he', hbuf, -⟩ := sampleOn_buffer h
  obtain rfl : e.wcur = w := Option.some.inj ((cursorOf_eq he).symm.trans hw)
  rw [bufferWord_eq he', bufferWord_eq he, hbuf, memRead_memWrite_ne _ _ hi]

/-- Settles O28: the frame of STEP, and of the buffer the frame of its one write. -/
theorem stepFrame : Obligations.StepFrame := by
  intro s t x h
  have hframe := execStep_frame h
  refine ⟨by rw [hframe], by rw [hframe], by rw [hframe], by rw [hframe], (exec_pending h).1, (exec_pending h).2,
    fun w hw i hi => ?_⟩
  rcases execStep_next h with ⟨-, y, u, hu, rfl⟩ | ⟨-, rfl⟩
  · exact sampleOn_bufferWord hu hw hi
  · rfl

/-! ### The mix and its tap (R116, R119, R121 to R123) -/

/-- Settles O33: the gains and the samples are finite, so no NaN stands in the sum. -/
theorem outputIsNotClamped : Obligations.OutputIsNotClamped := by
  intro nan
  rw [mix, fmul_finite (by decide) (by decide), fmul_finite (by decide) (by decide),
    fadd_finite (by decide +kernel) (by decide +kernel)]
  decide +kernel

/-- Settles O31: at delay 0 the read index is the cursor. -/
theorem zeroDelayReadsOldestWord : Obligations.ZeroDelayReadsOldestWord := by
  intro s r e x hs hl hr he hd
  obtain ⟨hw, -⟩ := engineOk_bounds (sound_engineOk hs hr he)
  refine ⟨afterStep s r e x 0, exec_step_eq hs hr he hl hd x, ?_⟩
  rw [afterStep, answer_responses, outputFor, readIndex_zero hw]
  rfl

/-- Settles O32: wherever the tap is read, OPEN's buffer is silent. -/
theorem firstOutputHasSilentTap : Obligations.FirstOutputHasSilentTap := by
  intro s x hs hl hopen
  obtain ⟨r, -, hr, -⟩ := running_parts hs hl
  obtain ⟨d, hd, -⟩ := exists_nextDelay hs hr hopen
  exact ⟨afterStep s r openedEngine x d, exec_step_eq hs hr hopen hl hd x, rfl⟩

/-- A block in a sound running state completes and leaves a sound running state. -/
theorem exec_block_sound {s : State} (xs : List F) (hs : sound s = true) (hl : s.lstate = .running) :
    ∃ ys u, samplesOn Config.params s xs = .ok (ys, u) ∧ exec (.block xs) s = .next (u.answer .ok ys) ∧
      sound (u.answer .ok ys) = true ∧ (u.answer .ok ys).lstate = .running := by
  obtain ⟨ys, u, hblock, -, hu, hlu⟩ := samplesOn_sound xs hs hl
  exact ⟨ys, u, hblock, execBlock_running hl hblock, hu, hlu⟩

/-- The input `d` samples before the next one, where `xs` are the inputs since OPEN; for `d = 0` the input `cap` samples
before it, and `+0.0` where there is none (R122). -/
def delayedInput (cap : Nat) (xs : List F) (d : Nat) : F :=
  if 1 ≤ d ∧ d ≤ xs.length then xs.getD (xs.length - d) 0
  else if d = 0 ∧ cap ≤ xs.length then xs.getD (xs.length - cap) 0
  else 0x0000000000000000

/-- With the inputs `xs` in the history and silence before them, the tap is the delayed input. -/
theorem tap_eq_delayedInput {cap d : Nat} {e : Engine} {xs : List F} (hd : d < cap)
    (h : ∀ k, 1 ≤ k → k ≤ cap → history cap e k = if k ≤ xs.length then xs.getD (xs.length - k) posZero else posZero) :
    memRead e.dbuf (readIndex cap e.wcur d) = delayedInput cap xs d := by
  rw [tap_eq_history, delayedInput]
  obtain rfl | hpos : d = 0 ∨ 1 ≤ d := by omega
  · rw [if_pos rfl, h cap hd le_rfl]
    simp [posZero]
  · have hne : d ≠ 0 := by omega
    rw [if_neg hne, h d hpos hd.le]
    simp [hpos, hne, posZero]

/-- Settles O46: the tap is a word of the history that the block left. -/
theorem tapIsDelayedInput : Obligations.TapIsDelayedInput := by
  intro s r xs x hs hl hr hopen
  obtain ⟨ys, u, hblock, hexec, hsound, hrunning⟩ := exec_block_sound xs hs hl
  obtain ⟨hcfg, hder, -⟩ := samplesOn_fields hblock
  obtain ⟨e, he, -, -, hhistory⟩ := history_block xs hs hl hr hopen hblock
  have hr' : (u.answer .ok ys).derived = some r := hder.trans hr
  obtain ⟨d, hd, hlt⟩ := exists_nextDelay hsound hr' he
  have htap : memRead e.dbuf (readIndex r.cap e.wcur d) = delayedInput r.cap xs d :=
    tap_eq_delayedInput hlt fun k hk hk' => by rw [hhistory k hk hk', history_blankBuffer rfl]
  refine ⟨_, e, d, _, hexec, he, hd, exec_step_eq hsound hr' he hrunning hd x, ?_⟩
  rw [afterStep, answer_responses, outputFor, htap, answer_cfg, hcfg]
  rfl

/-! ### The delay path (R120, R133)

Sample values reach the buffer and the outputs only: the cursor and the phase after a block are functions of those
before it and of the number of samples, and the delay is a function of the phase. -/

/-- What the delay path keeps from sample to sample: the cursor and the phase, where the engine state exists. -/
def delayState (s : State) : Option (Nat × F) := s.engine.map fun e => (e.wcur, e.phase)

/-- One sample on the cursor and the phase (R100, R118). No NaN arises there, so what stands for one does not matter. -/
def advance (r : Derived) (q : Nat × F) : Nat × F :=
  ((q.1 + 1) % r.cap, lfoPhase Config.params posZero q.2 r.phaseInc)

theorem delayState_answer (s : State) (st : Status) (d : List DataWord) :
    delayState (s.answer st d) = delayState s := rfl

theorem cursorOf_eq_map (s : State) : cursorOf s = (delayState s).map Prod.fst := by
  rw [delayState, Option.map_map]; rfl

theorem phaseOf_eq_map (s : State) : phaseOf s = (delayState s).map Prod.snd := by
  rw [delayState, Option.map_map]; rfl

section
variable {s t : State} {r : Derived} {x : F} (hs : sound s = true) (hl : s.lstate = .running) (hr : s.derived = some r)
include hs hl hr

/-- One sample, whatever its value, advances the cursor and the phase. -/
theorem sampleOn_delayState {y : F} (h : sampleOn Config.params s x = .ok (y, t)) :
    delayState t = (delayState s).map (advance r) := by
  obtain ⟨-, e, -, he⟩ := running_parts hs hl
  obtain ⟨d, hd, -⟩ := exists_nextDelay hs hr he
  rw [sampleOn_eq hs hr he hl hd x] at h
  cases h
  obtain ⟨-, -, -, -, hpos, hbelow, -⟩ := derivedOk_bounds (sound_derivedOk hs hr)
  have hinc : incOk r.phaseInc = true := by rw [incOk, hpos, hbelow]; rfl
  rw [delayState, delayState, he]
  exact congrArg some (Prod.ext rfl (lfoPhase_nan _ _ (sound_phaseOk hs hr he) hinc))

theorem exec_step_delayState (h : exec (.step x) s = .next t) : delayState t = (delayState s).map (advance r) := by
  rcases execStep_next h with ⟨-, y, u, hu, rfl⟩ | ⟨hne, -⟩
  · rw [delayState_answer, sampleOn_delayState hs hl hr hu]
  · exact absurd hl hne

end

/-- A block advances the cursor and the phase once a sample, whatever the samples. -/
theorem samplesOn_delayState (xs : List F) : ∀ {s t : State} {ys : List F} {r : Derived}, sound s = true →
    s.lstate = .running → s.derived = some r → samplesOn Config.params s xs = .ok (ys, t) →
    delayState t = (delayState s).map (advance r)^[xs.length] := by
  induction xs with
  | nil => intro s t ys r _ _ _ h; cases h; simp
  | cons x xs ih =>
    intro s t ys r hs hl hr h
    obtain ⟨y, u, zs, hsample, hrest, -⟩ := samplesOn_cons.1 h
    obtain ⟨hu, hlu⟩ := sampleOn_keeps hs hl hsample
    obtain ⟨-, hder, -⟩ := sampleOn_fields hsample
    rw [ih hu hlu (hder.trans hr) hrest, sampleOn_delayState hs hl hr hsample, Option.map_map, List.length_cons,
      Function.iterate_succ]

/-- What a block that answered has done to the parts that the delay of the next sample depends on. -/
theorem exec_block_delayState {s t : State} {xs : List F} {r : Derived} (hs : sound s = true)
    (hl : s.lstate = .running) (hr : s.derived = some r) (h : exec (.block xs) s = .next t) :
    sound t = true ∧ t.lstate = .running ∧ t.cfg = s.cfg ∧ t.derived = some r ∧
      delayState t = (delayState s).map (advance r)^[xs.length] := by
  obtain ⟨ys, u, hblock, hexec, hsound, hrunning⟩ := exec_block_sound xs hs hl
  rw [h] at hexec
  cases hexec
  obtain ⟨hcfg, hder, -⟩ := samplesOn_fields hblock
  exact ⟨hsound, hrunning, hcfg, hder.trans hr,
    (delayState_answer _ _ _).trans (samplesOn_delayState xs hs hl hr hblock)⟩

/-- The `t`, `u` and `d` of the next sample depend on the configuration and the phase only (R120). -/
theorem delay_of_phase {c : EffectConfig} {r : Derived} {e e' : Engine} (hr : derivedOk c r = true)
    (hp : phaseOk e.phase = true) (h : e.phase = e'.phase) (n n' : Nat) :
    nextSeconds c n e = nextSeconds c n' e' ∧ nextProduct c r n e = nextProduct c r n' e' ∧
      nextDelay c r n e = nextDelay c r n' e' := by
  rw [nextSeconds_draws n n' hr hp, nextProduct_draws n n' hr hp, nextDelay_draws n n' hr hp]
  simp only [nextSeconds, nextProduct, nextDelay, h, and_self]

/-- Settles O52: the delay states after the two blocks are equal, and so are they after one more sample. -/
theorem delayPathIgnoresSamples : Obligations.DelayPathIgnoresSamples := by
  intro s t u xs ys hs hl hlen ht hu
  obtain ⟨r, -, hr, -⟩ := running_parts hs hl
  obtain ⟨hst, hlt, hct, hrt, hpt⟩ := exec_block_delayState hs hl hr ht
  obtain ⟨hsu, hlu, hcu, hru, hpu⟩ := exec_block_delayState hs hl hr hu
  have hsame : delayState t = delayState u := by rw [hpt, hpu, hlen]
  obtain ⟨-, e, -, he⟩ := running_parts hst hlt
  obtain ⟨-, e', -, he'⟩ := running_parts hsu hlu
  obtain ⟨hcursor, hphase⟩ : e.wcur = e'.wcur ∧ e.phase = e'.phase := by
    simpa [delayState, he, he'] using hsame
  obtain ⟨hseconds, hproduct, hdelay⟩ :=
    delay_of_phase (sound_derivedOk hs hr) (sound_phaseOk hst hrt he) hphase t.nanDraws u.nanDraws
  obtain ⟨d, hd, -⟩ := exists_nextDelay hst hrt he
  have hd' : nextDelay u.cfg r u.nanDraws e' = .ok d := by rw [hcu, ← hdelay, ← hct, hd]
  refine ⟨r, e, e', d, hr, he, he', hcursor, hphase, hseconds, hproduct, hct ▸ hd, hcu ▸ hd', fun x => ?_⟩
  have hstep := exec_step_eq hst hrt he hlt hd x
  have hstep' := exec_step_eq hsu hru he' hlu hd' x
  have hnext : delayState (afterStep t r e x d) = delayState (afterStep u r e' x d) := by
    rw [exec_step_delayState hst hlt hrt hstep, exec_step_delayState hsu hlu hru hstep', hsame]
  refine ⟨_, _, hstep, hstep', ?_, ?_, ?_, ?_⟩
  · rw [← hct]; rfl
  · rw [← hcu, hcursor]; rfl
  · rw [cursorOf_eq_map, hnext, ← cursorOf_eq_map]
  · rw [phaseOf_eq_map, hnext, ← phaseOf_eq_map]

end Sys2Proof.Proofs.EngineStep

namespace Sys2Proof.Proofs.Block

/-! The block family (43_block.md): a block is its samples in order, STEP is the block of one sample, blocks compose,
and what a block leaves unchanged. -/

open Sys2Proof Sys2Proof.Machine Sys2Proof.Laws Sys2Proof.Proofs.ArchitecturalState Sys2Proof.Proofs.EngineStep

/-! ### What BLOCK answers (R130, R132) -/

/-- Outside RUNNING BLOCK is rejected (R130). -/
theorem exec_block_rejected {s : State} (hl : s.lstate ≠ .running) (xs : List F) :
    exec (.block xs) s = .next (s.answer .estate []) := if_neg hl

theorem exec_block_nil {s : State} (hl : s.lstate = .running) : exec (.block []) s = .next (s.answer .ok []) :=
  execBlock_running hl (samplesOn_nil s)

/-- Settles O48. -/
theorem emptyBlockChangesNothing : Obligations.EmptyBlockChangesNothing := by
  refine ⟨by decide, fun s => ?_⟩
  by_cases hl : s.lstate = .running
  · rw [if_pos hl]
    exact exec_block_nil hl
  · rw [if_neg hl]
    exact exec_block_rejected hl []

/-! ### STEP is the block of one sample (R134) -/

/-- A block stops at the first sample that faults. -/
theorem samplesOn_cons_error {s : State} {x : F} {f : Fault} (h : sampleOn Config.params s x = .error f) (xs : List F) :
    samplesOn Config.params s (x :: xs) = .error f := by
  rw [samplesOn, h]

theorem exec_block_fault {s : State} {xs : List F} {f : Fault} (hl : s.lstate = .running)
    (h : samplesOn Config.params s xs = .error f) : exec (.block xs) s = .fault f := by
  rw [exec, execBlock, blockWith, if_pos hl, h]

theorem exec_step_fault {s : State} {x : F} {f : Fault} (hl : s.lstate = .running)
    (h : sampleOn Config.params s x = .error f) : exec (.step x) s = .fault f := by
  rw [exec, execStep, stepWith, if_pos hl, h]

/-- Settles O49: both are rejected, or both have the outcome of the one sample, its fault included. -/
theorem stepIsBlockOfOne : Obligations.StepIsBlockOfOne := by
  intro x s
  by_cases hl : s.lstate = .running
  · rcases hsample : sampleOn Config.params s x with f | ⟨y, t⟩
    · rw [exec_step_fault hl hsample, exec_block_fault hl (samplesOn_cons_error hsample [])]
    · exact (execBlock_running hl (samplesOn_singleton hsample)).trans (execStep_running hl hsample).symm
  · rw [exec_step_rejected hl, exec_block_rejected hl]

/-! ### An OK answer and the run behind it (R130)

A block that answered OK ran its samples, and the response tells their outputs. So a statement about blocks that
answered is one about `samplesOn`, where blocks compose. -/

/-- A state with one more response than before is an earlier state answered. -/
theorem eq_answer {s t : State} {st : Status} {d : List DataWord} (h : t.responses = s.responses ++ [⟨st, d⟩]) :
    t = ({ t with responses := s.responses } : State).answer st d := by
  rw [State.answer, ← h]

/-- States with the same responses before an answer are told apart after it. -/
theorem answer_inj {s t : State} {st st' : Status} {d d' : List DataWord} (hr : s.responses = t.responses)
    (h : s.answer st d = t.answer st' d') : s = t ∧ st = st' ∧ d = d' := by
  cases s
  cases t
  simp_all [State.answer]

/-- A block answers OK exactly where its samples run. -/
theorem exec_block_ok_iff {s u : State} {xs ys : List F} (hu : u.responses = s.responses) :
    exec (.block xs) s = .next (u.answer .ok ys) ↔
      s.lstate = .running ∧ samplesOn Config.params s xs = .ok (ys, u) := by
  refine ⟨fun h => ?_, fun ⟨hl, h⟩ => execBlock_running hl h⟩
  rcases execBlock_next h with ⟨hl, zs, v, hv, heq⟩ | ⟨-, heq⟩
  · obtain ⟨-, -, -, -, -, hresp⟩ := samplesOn_fields hv
    obtain ⟨rfl, -, rfl⟩ := answer_inj (hu.trans hresp.symm) heq
    exact ⟨hl, hv⟩
  · obtain ⟨-, hstatus, -⟩ := answer_inj hu heq
    cases hstatus

/-- What a block that answered OK has run. -/
theorem samplesOn_of_answered {s t : State} {xs ys : List F} (h : exec (.block xs) s = .next t)
    (ht : t.responses = s.responses ++ [⟨.ok, ys⟩]) :
    s.lstate = .running ∧ samplesOn Config.params s xs = .ok (ys, { t with responses := s.responses }) := by
  rw [eq_answer ht] at h
  exact (exec_block_ok_iff (s := s) (u := { t with responses := s.responses }) rfl).1 h

/-- Settles O47: the first sample is a block of one, and its run is followed by the run of the rest. -/
theorem blockIsItsSamplesInOrder : Obligations.BlockIsItsSamplesInOrder := by
  refine fun s => ⟨fun hl => ⟨exec_block_nil hl, fun x y xs ys u v hu hv hfirst hrest => ?_, fun hs xs => ?_⟩,
    exec_block_rejected⟩
  · rw [← stepIsBlockOfOne, exec_block_ok_iff hu] at hfirst
    rw [exec_block_ok_iff (hv.trans hu.symm)] at hrest
    exact (exec_block_ok_iff hv).2 ⟨hl, samplesOn_append hfirst.2 hrest.2⟩
  · obtain ⟨ys, u, hblock, hexec, -, -⟩ := exec_block_sound xs hs hl
    obtain ⟨-, -, -, -, -, hresp⟩ := samplesOn_fields hblock
    exact ⟨ys, u.answer .ok ys, hexec, (samplesOn_frame hblock).2, by rw [answer_responses, hresp]⟩

/-! ### Partition invariance (R134) -/

/-- A block runs the same whatever has been answered before it. -/
theorem samplesOn_withResponses {s t : State} {xs ys : List F} (q : List Response)
    (h : samplesOn Config.params s xs = .ok (ys, t)) :
    samplesOn Config.params { s with responses := q } xs = .ok (ys, { t with responses := q }) := by
  obtain ⟨-, -, -, -, hpending, -⟩ := samplesOn_fields h
  exact (samplesOn_congr s.pending q h).trans (by rw [← hpending])

/-- Settles O50: the second block runs the same from the state in which the first has not been answered. -/
theorem blocksCompose : Obligations.BlocksCompose := by
  intro s t u xs ys os ps hxs ht hys hu
  obtain ⟨hl, hfirst⟩ := samplesOn_of_answered hxs ht
  obtain ⟨-, hsecond⟩ := samplesOn_of_answered hys hu
  exact execBlock_running hl (samplesOn_append hfirst (samplesOn_withResponses s.responses hsecond))

/-! ### The frame of BLOCK (R130, R52) -/

/-- The samples of a block store to the words from the cursor on, modulo the capacity, and to no other (R52). -/
theorem samplesOn_bufferWord (xs : List F) : ∀ {s t : State} {ys : List F} {r : Derived} {e : Engine} {a : Nat},
    sound s = true → s.lstate = .running → s.derived = some r → s.engine = some e →
    samplesOn Config.params s xs = .ok (ys, t) → (∀ j, j < xs.length → a ≠ (e.wcur + j) % r.cap) →
    bufferWord t a = bufferWord s a := by
  induction xs with
  | nil => intro s t ys r e a _ _ _ _ h _; cases h; rfl
  | cons x xs ih =>
    intro s t ys r e a hs hl hr he h ha
    obtain ⟨y, u, zs, hsample, hrest, -⟩ := samplesOn_cons.1 h
    obtain ⟨hu, hlu⟩ := sampleOn_keeps hs hl hsample
    obtain ⟨-, hder, -⟩ := sampleOn_fields hsample
    obtain ⟨r', f, f', hr', hf, hf', -, hcursor⟩ := sampleOn_buffer hsample
    obtain rfl : r = r' := by simpa [hr] using hr'
    obtain rfl : e = f := by simpa [he] using hf
    obtain ⟨hw, -⟩ := engineOk_bounds (sound_engineOk hs hr he)
    have hhere : a ≠ e.wcur := by simpa [Nat.mod_eq_of_lt hw] using ha 0 (by simp)
    rw [nextCursor_eq hw (cap_bounds (sound_derivedOk hs hr)).2] at hcursor
    have hlater : ∀ j, j < xs.length → a ≠ (f'.wcur + j) % r.cap := fun j hj => by
      rw [hcursor, Nat.mod_add_mod, Nat.add_assoc, Nat.add_comm 1]
      exact ha (j + 1) (by simpa using hj)
    rw [ih hu hlu (hder.trans hr) hf' hrest hlater, sampleOn_bufferWord hsample (cursorOf_eq he) hhere]

/-- Settles O51: the frame of its samples. -/
theorem blockFrame : Obligations.BlockFrame := by
  intro s t xs r e hs hl hr he h
  obtain ⟨ys, u, hblock, hexec, -, -⟩ := exec_block_sound xs hs hl
  rw [h] at hexec
  cases hexec
  obtain ⟨hcfg, hder, hlstate, herr, hpending, -⟩ := samplesOn_fields hblock
  exact ⟨hcfg, hder, hlstate, herr, hpending, fun a ha => samplesOn_bufferWord (t := u) xs hs hl hr he hblock ha⟩

end Sys2Proof.Proofs.Block

namespace Sys2Proof.Proofs.Lifecycle

/-! The lifecycle family (44_lifecycle.md): the table of R140, what CFG_WR and CFG_COMMIT do to the configuration, the
life of the engine state, and RD. -/

open Sys2Proof Sys2Proof.Machine Sys2Proof.Laws Sys2Proof.Proofs.ArchitecturalState

/-! ### The lifecycle table (R140) -/

/-- A command that is not admitted is answered ESTATE and changes nothing (R140, R174). -/
theorem exec_rejected {s : State} {i : Instr} (h : admitted i s.lstate = false) :
    exec i s = .next (s.answer .estate []) := by
  cases i <;> exact if_neg (by simpa [admitted] using h)

/-- The reset input is taken from the queue and puts the machine to its reset values (R190). -/
theorem step_reset {s : State} {rest : List HostEvent} (hp : s.pending = .reset :: rest) :
    step s = .next (resetMachine { s with pending := rest }) := by
  have hfetch : fetch Config.params s = .reset { s with pending := rest } := by simp only [fetch_eq, hp]
  simp only [step, hfetch]

/-- Settles O10: a command is rejected, completes, or is a CFG_COMMIT that fails; a step that executes no command and
is no reset keeps `LSTATE`, and so does a rejected command. -/
theorem lifecycleFollowsTable : Obligations.LifecycleFollowsTable := by
  refine ⟨fun i s t h => ?_, fun s rest hp => ⟨_, step_reset hp, rfl⟩, fun s t h hchanged => ?_⟩
  · rcases exec_next h with ⟨hno, rfl⟩ | ⟨hyes, hafter, -, d, hresponse, -⟩ | ⟨hidle, rfl, herror, -, hresponse, -⟩
    · exact ⟨fun hyes => by simp [hno] at hyes, fun _ => rfl⟩
    · exact ⟨fun _ => .inl ⟨hafter, d, hresponse⟩, fun hno => by simp [hyes] at hno⟩
    · exact ⟨fun _ => .inr ⟨rfl, herror, hresponse⟩, fun hno => by simp [admitted, hidle] at hno⟩
  · rcases step_next h with ⟨-, rfl⟩ | ⟨rest, hp, -⟩ | ⟨w, d, rest, e, -, -, rfl⟩ | ⟨w, d, rest, i, hp, hi, hexec⟩
    · exact absurd rfl hchanged
    · exact .inl ⟨rest, hp⟩
    · exact absurd rfl hchanged
    · refine .inr ⟨w, d, rest, i, hp, hi, ?_⟩
      by_contra hno
      rw [exec_rejected (by simpa using hno)] at hexec
      cases hexec
      exact hchanged rfl

/-! ### The configuration is frozen (R152) -/

/-- No row of the table leads back to IDLE. -/
theorem lifecycleAfter_ne_idle {l : LState} (hl : l ≠ .idle) (i : Instr) : lifecycleAfter l i ≠ .idle := by
  cases i <;> simp [lifecycleAfter, hl]

/-- Settles O13: the two commands that write config and derived registers are admitted in IDLE only, and a CFG_COMMIT
that fails writes neither. -/
theorem configurationIsFrozen : Obligations.ConfigurationIsFrozen := by
  refine ⟨fun i s t hl h => ?_, fun s t hs hl h herror => ?_⟩
  · rcases exec_next h with ⟨-, rfl⟩ | ⟨hyes, hafter, -⟩ | ⟨hidle, -⟩
    · exact ⟨rfl, rfl, hl⟩
    · obtain ⟨-, hcfg, hderived, -⟩ := onlyNamedCommandsWrite i s t h
      have hwr : ∀ f v, i ≠ .cfgWr f v := by rintro f v rfl; simp [admitted, hl] at hyes
      have hcommit : i ≠ .cfgCommit := by rintro rfl; simp [admitted, hl] at hyes
      exact ⟨hcfg hwr, (hderived hcommit).1, hafter ▸ lifecycleAfter_ne_idle hl i⟩
    · exact absurd hidle hl
  · rcases exec_next h with ⟨hno, -⟩ | ⟨-, hafter, -⟩ | ⟨-, -, -, -, -, hcfg, hderived, -⟩
    · simp [admitted, hl] at hno
    · rw [herror] at hafter; cases hafter
    · exact ⟨hcfg, hderived.trans (sound_withoutDerived hs (by rw [hl]; rfl))⟩

/-! ### CFG_WR (R141) -/

@[simp] theorem getField_setField_same (c : EffectConfig) (f : CfgField) (v : DataWord) :
    getField (setField c f v) f = v := by
  cases f <;> rfl

theorem getField_setField_ne (c : EffectConfig) {f g : CfgField} (v : DataWord) (h : g ≠ f) :
    getField (setField c f v) g = getField c g := by
  cases f <;> cases g <;> simp [getField, setField] at h ⊢

/-- Settles O16: the field that `setField` replaces is the named one. -/
theorem cfgWrStoresField : Obligations.CfgWrStoresField := by
  refine fun f v s => ⟨by cases f <;> rfl, fun hl => ⟨setField s.cfg f v, if_pos hl, ?_, ?_⟩,
    fun hl => exec_rejected (by simpa [admitted] using hl)⟩
  · exact getField_setField_same s.cfg f v
  · exact fun g hg => getField_setField_ne s.cfg v hg

/-! ### CFG_COMMIT (R142 to R144) -/

section
variable {s : State} (hl : s.lstate = .idle)
include hl

/-- A configuration that passes the checks is derived from, and the state is CONFIGURED (R144). -/
theorem exec_cfgCommit_passed (h : firstFailing Config.params (drawNaN s.nanDraws) s.cfg = .none) :
    exec .cfgCommit s = .next (({ s with
      derived := some (deriveFrom Config.params (drawNaN s.nanDraws) s.cfg), lstate := .configured } : State).answer
        .ok []) := by
  rw [exec, execCfgCommit_eq, if_pos hl, if_pos h]; rfl

/-- The first failing check is the configuration error (R172). -/
theorem exec_cfgCommit_failed {c : ErrCause} (h : firstFailing Config.params (drawNaN s.nanDraws) s.cfg = c)
    (hc : c ≠ .none) : exec .cfgCommit s = commitFailure s c := by
  rw [exec, execCfgCommit_eq, if_pos hl, h, if_neg hc]; rfl

end

/-- The checks of R143 in the rule's words and order, `inc` being the increment that R144 derives. -/
theorem firstFailing_eq_checks {nan inc : F} {c : EffectConfig}
    (hinc : inc = fdiv nan (fmul nan Config.twoPi c.modFreq) (ofUint c.sampleRate.toNat)) :
    firstFailing Config.params nan c =
      if isFinite c.depth = false then .depthNotNumeric
      else if fgt c.depth posZero = false then .depthNotPositive
      else if c.sampleRate.toNat < 20 ∨ 1310739 < c.sampleRate.toNat then .badSampleRate
      else if isFinite c.modFreq = false ∨ fgt c.modFreq posZero = false ∨ fgt inc posZero = false ∨
          flt inc Config.twoPi = false then .badModFreq
      else if isFinite c.dryGain = false ∨ isFinite c.wetGain = false then .badGain
      else .none := by
  have hrate : sampleRateIsLegal Config.params c = false ↔
      c.sampleRate.toNat < 20 ∨ 1310739 < c.sampleRate.toNat := by
    rw [← Bool.not_eq_true, sampleRateIsLegal_iff]; omega
  have hmod : modFreqIsLegal Config.params nan c = (isFinite c.modFreq && (fgt c.modFreq posZero &&
      (fgt inc posZero && flt inc Config.twoPi))) := by
    rw [modFreqIsLegal_eq, Bool.and_assoc, incrementOf_eq, ← hinc]
  simp only [firstFailing_eq, depthIsNumeric, depthIsPositive, gainsAreFinite, hmod, Bool.not_eq_true', hrate,
    Bool.and_eq_false_iff]

/-- Settles O17: no check fails, and a legal sample rate loses nothing in `CAP` or `SR_F`. -/
theorem commitDerivesFromLegalConfig : Obligations.CommitDerivesFromLegalConfig := by
  intro s inc hl hinc hnumeric hpositive hlo hhi hmod hmodpos hincpos (hinclt : flt inc Config.twoPi = true) hdry hwet
  have hpass : firstFailing Config.params (drawNaN s.nanDraws) s.cfg = .none := by
    rw [firstFailing_eq_checks hinc]
    simp [hnumeric, hpositive, not_lt.2 hlo, not_lt.2 hhi, hmod, hmodpos, hincpos, hinclt, hdry, hwet]
  exact ⟨_, exec_cfgCommit_passed hl hpass, (passed hpass).cap_eq, rfl, unitsOf_ofUint (by omega), hinc.symm⟩

/-- Settles O18: in each clause the checks before the failing one hold, so the ladder of checks stops at its cause. -/
theorem commitReportsFirstFailure : Obligations.CommitReportsFirstFailure := by
  refine ⟨⟨rfl, rfl, rfl, rfl, rfl⟩, fun s inc hl hinc => ⟨fun hfails => ?_, fun hnumeric hfails => ?_,
    fun hnumeric hpositive hfails => ?_,
    fun hnumeric hpositive hlo hhi (hfails : _ ∨ _ ∨ _ ∨ flt inc Config.twoPi = false) => ?_,
    fun hnumeric hpositive hlo hhi hmod hmodpos hincpos (hinclt : flt inc Config.twoPi = true) hfails => ?_⟩⟩
  all_goals
    refine exec_cfgCommit_failed hl ?_ (by decide)
    rw [firstFailing_eq_checks hinc]
  · rw [if_pos hfails]
  · rw [if_pos hfails]
    simp [hnumeric]
  · rw [if_pos hfails]
    simp [hnumeric, hpositive]
  · rw [if_pos hfails]
    simp [hnumeric, hpositive, not_lt.2 hlo, not_lt.2 hhi]
  · rw [if_pos hfails]
    simp [hnumeric, hpositive, not_lt.2 hlo, not_lt.2 hhi, hmod, hmodpos, hincpos, hinclt]

/-! ### RD (R150) -/

/-- RD of a register that its lifecycle state admits and that holds a value. -/
theorem exec_rd_admitted {s : State} {r : RegName} {v : DataWord} (hl : regAdmitted s.lstate r = true)
    (hv : regValue s r = .ok v) : exec (.rd r) s = .next (s.answer .ok [v]) := by
  rw [exec, execRd, if_pos hl, hv]; rfl

theorem exec_rd_cfg (s : State) (f : CfgField) : exec (.rd (.cfg f)) s = .next (s.answer .ok [getField s.cfg f]) := rfl

section
variable {s : State}

theorem exec_rd_derived {r : Derived} (hl : holdsDerived s.lstate = true) (hr : s.derived = some r) :
    exec (.rd .cap) s = .next (s.answer .ok [BitVec.ofNat 64 r.cap]) ∧
      exec (.rd .phaseInc) s = .next (s.answer .ok [r.phaseInc]) :=
  ⟨exec_rd_admitted hl (by rw [regValue, hr]; rfl), exec_rd_admitted hl (by rw [regValue, hr]; rfl)⟩

theorem exec_rd_engine {e : Engine} (hl : holdsEngine s.lstate = true) (he : s.engine = some e) :
    exec (.rd .wcur) s = .next (s.answer .ok [BitVec.ofNat 64 e.wcur]) ∧
      exec (.rd .phase) s = .next (s.answer .ok [e.phase]) :=
  ⟨exec_rd_admitted hl (by rw [regValue, he]; rfl), exec_rd_admitted hl (by rw [regValue, he]; rfl)⟩

theorem exec_rd_derived_rejected (hl : holdsDerived s.lstate = false) :
    exec (.rd .cap) s = .next (s.answer .estate []) ∧ exec (.rd .phaseInc) s = .next (s.answer .estate []) :=
  ⟨exec_rejected hl, exec_rejected hl⟩

theorem exec_rd_engine_rejected (hl : holdsEngine s.lstate = false) :
    exec (.rd .wcur) s = .next (s.answer .estate []) ∧ exec (.rd .phase) s = .next (s.answer .estate []) :=
  ⟨exec_rejected hl, exec_rejected hl⟩

end

/-- Settles O24: a sound state holds a value exactly where RD of the register is admitted. -/
theorem rdAnswersRegister : Obligations.RdAnswersRegister := by
  refine ⟨fun r => ?_, fun s hs => ⟨exec_rd_cfg s, rfl, rfl, fun hl => ?_, fun hidle herror => ?_, fun hl => ?_,
    fun hready hrunning hstopped => ?_⟩⟩
  · rcases r with (_ | _) | _ <;> rfl
  · exact exec_rd_derived_rejected (by rcases hl with hl | hl <;> rw [hl] <;> rfl)
  · have hl := holdsDerived_iff.2 ⟨hidle, herror⟩
    obtain ⟨r, hr⟩ := (sound_derived_iff hs).2 hl
    exact ⟨r, hr, exec_rd_derived hl hr⟩
  · have hl := holdsEngine_iff.2 hl
    obtain ⟨e, he⟩ := (sound_engine_iff hs).2 hl
    exact ⟨e, he, exec_rd_engine hl he⟩
  · refine exec_rd_engine_rejected (Bool.eq_false_iff.2 fun hl => ?_)
    simp [holdsEngine_iff, *] at hl

/-! ### The life of the engine state (R146 to R149) -/

/-- Settles O20: OPEN stores `openedEngine`, whose buffer lists no word. -/
theorem openCreatesSilentEngine : Obligations.OpenCreatesSilentEngine := by
  refine ⟨rfl, fun s => ⟨fun hl hderived => ?_, fun hl => exec_rejected (by simpa [admitted] using hl)⟩⟩
  obtain ⟨r, hr⟩ := Option.ne_none_iff_exists'.1 hderived
  refine ⟨openedEngine, ?_, memRead_blankBuffer, rfl, rfl⟩
  rw [exec, execOpen, if_pos hl, hr]; rfl

/-- Settles O21: `LSTATE` is the one register that START writes. -/
theorem startOnlyStarts : Obligations.StartOnlyStarts :=
  ⟨rfl, fun _ => ⟨fun hl => if_pos hl, fun hl => exec_rejected (by simpa [admitted] using hl)⟩,
    fun _ => rfl, fun _ => rfl⟩

/-- Settles O22: STOPPED admits no sample but still holds the engine state. -/
theorem stopOnlyStops : Obligations.StopOnlyStops := by
  refine ⟨rfl, fun s => ⟨fun hl => ⟨_, if_pos hl, rfl, fun x => ?_, fun xs => ?_, fun e he => ?_⟩,
    fun hl => exec_rejected (by simpa [admitted] using hl)⟩⟩
  · exact exec_rejected rfl
  · exact exec_rejected rfl
  · exact exec_rd_engine rfl he

/-- Settles O23: CLOSED holds the derived registers and no engine state. -/
theorem closeDestroysEngine : Obligations.CloseDestroysEngine := by
  refine ⟨rfl, fun s => ⟨fun hl => ⟨_, if_pos hl, rfl, ?_, ?_, fun f => ?_, fun r hr => ?_⟩,
    fun hready hstopped => exec_rejected (by simp [admitted, hready, hstopped])⟩⟩
  · exact (exec_rd_engine_rejected rfl).1
  · exact (exec_rd_engine_rejected rfl).2
  · exact exec_rd_cfg _ f
  · exact exec_rd_derived rfl hr

end Sys2Proof.Proofs.Lifecycle

namespace Sys2Proof.Proofs.Exceptions

/-! The exceptions family (60_exceptions.md): rejections and the idle step, ERROR, and that no step from a sound state
faults or is refused. -/

open Sys2Proof Sys2Proof.Machine Sys2Proof.Laws
open Sys2Proof.Proofs.ArchitecturalState Sys2Proof.Proofs.Memory Sys2Proof.Proofs.Encoding
open Sys2Proof.Proofs.EngineStep Sys2Proof.Proofs.Block Sys2Proof.Proofs.Lifecycle

/-! ### Rejections and the idle step (R174, R187) -/

/-- Settles O11. -/
theorem rejectionsChangeNothing : Obligations.RejectionsChangeNothing :=
  ⟨fun _ _ h => exec_rejected h, fun _ _ _ _ _ hp he => step_illegal hp he⟩

/-- Settles O6: an empty queue gives the step nothing to take. -/
theorem idleStepKeepsState : Obligations.IdleStepKeepsState := by
  intro s hp
  have hfetch : fetch Config.params s = .nothing := by simp only [fetch_eq, hp]
  simp only [step, hfetch]

/-! ### ERROR is absorbing (R173) -/

/-- The column ERROR of R140: it admits nothing but RD. -/
theorem admitted_error {i : Instr} (hi : ∀ r, i ≠ .rd r) : admitted i .error = false := by
  cases i with
  | rd r => exact absurd rfl (hi r)
  | _ => rfl

section
variable {s : State} (hl : s.lstate = .error)
include hl

theorem exec_error {i : Instr} (hi : ∀ r, i ≠ .rd r) : exec i s = .next (s.answer .estate []) :=
  exec_rejected (by rw [hl, admitted_error hi])

/-- RD writes no register, and every other command is rejected. -/
theorem exec_keeps_error {i : Instr} {t : State} (h : exec i s = .next t) : t.lstate = .error ∧ t.cfg = s.cfg := by
  by_cases hrd : ∃ r, i = .rd r
  · obtain ⟨r, rfl⟩ := hrd
    rw [execRd_frame h]
    exact ⟨hl, rfl⟩
  · rw [exec_error hl (not_exists.1 hrd)] at h
    cases h
    exact ⟨hl, rfl⟩

end

/-- Settles O12: of the four things a step can do, only reset writes `LSTATE` in ERROR. -/
theorem errorIsLeftOnlyByReset : Obligations.ErrorIsLeftOnlyByReset := by
  refine fun s hl => ⟨fun i hi => exec_error hl hi, fun t h => ?_⟩
  rcases step_next h with ⟨-, rfl⟩ | ⟨rest, hp, -⟩ | ⟨w, d, rest, e, -, -, rfl⟩ | ⟨w, d, rest, i, -, -, hexec⟩
  · exact .inr ⟨hl, rfl⟩
  · exact .inl ⟨rest, hp⟩
  · exact .inr ⟨hl, rfl⟩
  · exact .inr (exec_keeps_error (s := { s with pending := rest }) hl hexec)

/-! ### Every step completes (R125, R175, R176) -/

/-- The checks of CFG_COMMIT pass or name a cause; neither faults (R142). -/
theorem exec_cfgCommit_completes {s : State} (hl : s.lstate = .idle) : ∃ t, exec .cfgCommit s = .next t := by
  by_cases hpass : firstFailing Config.params (drawNaN s.nanDraws) s.cfg = .none
  · exact ⟨_, exec_cfgCommit_passed hl hpass⟩
  · exact ⟨_, exec_cfgCommit_failed hl rfl hpass⟩

section
variable {s : State} (hs : sound s = true)
include hs

/-- OPEN reads `CAP`, which holds a value in CONFIGURED (R146). -/
theorem exec_open_completes (hl : s.lstate = .configured) : ∃ t, exec .openStream s = .next t := by
  obtain ⟨r, hr, -⟩ := sound_derived hs (by rw [hl]; rfl)
  obtain ⟨e, hexec, -⟩ := (openCreatesSilentEngine.2 s).1 hl (by simp [hr])
  exact ⟨_, hexec⟩

/-- One sample in RUNNING has a delay and completes (R175). -/
theorem exec_step_completes (hl : s.lstate = .running) (x : F) : ∃ t, exec (.step x) s = .next t := by
  obtain ⟨r, e, hr, he⟩ := running_parts hs hl
  obtain ⟨d, hd, -⟩ := exists_nextDelay hs hr he
  exact ⟨_, exec_step_eq hs hr he hl hd x⟩

/-- A command that the lifecycle state does not admit is rejected; one that it admits finds the values it reads. -/
theorem exec_completes (i : Instr) : ∃ t, exec i s = .next t := by
  cases hi : admitted i s.lstate with
  | false => exact ⟨_, exec_rejected hi⟩
  | true =>
    cases i with
    | cfgWr f v => exact ⟨_, if_pos (of_decide_eq_true hi)⟩
    | cfgCommit => exact exec_cfgCommit_completes (of_decide_eq_true hi)
    | openStream => exact exec_open_completes hs (of_decide_eq_true hi)
    | startStream => exact ⟨_, if_pos (of_decide_eq_true hi)⟩
    | step x => exact exec_step_completes hs (of_decide_eq_true hi) x
    | block xs =>
      obtain ⟨ys, u, -, hexec, -⟩ := exec_block_sound xs hs (of_decide_eq_true hi)
      exact ⟨_, hexec⟩
    | stopStream => exact ⟨_, if_pos (of_decide_eq_true hi)⟩
    | closeStream => exact ⟨_, if_pos (by simpa [admitted] using hi)⟩
    | rd r =>
      obtain ⟨v, hv⟩ := regValue_sound hs hi
      exact ⟨_, exec_rd_admitted hi hv⟩

end

/-- Settles O55: along the queue's next event, FLG idles, is reset, answers EILL, or executes a command, which
completes. -/
theorem soundStatesAlwaysStep : Obligations.SoundStatesAlwaysStep := by
  intro s hs
  match hp : s.pending with
  | [] => exact ⟨s, idleStepKeepsState s hp⟩
  | .reset :: _ => exact ⟨_, step_reset hp⟩
  | .command w d :: rest =>
    cases hd : decode w d with
    | error e => exact ⟨_, step_illegal hp hd⟩
    | ok i =>
      rw [stepRunsDecodedInstruction s w d rest i hp hd]
      exact exec_completes (by rwa [sound_pending]) i

end Sys2Proof.Proofs.Exceptions

namespace Sys2Proof.Proofs.ResetAndHazards

/-! The family of reset and hazards (70_reset_and_hazards.md). -/

open Sys2Proof Sys2Proof.Machine Sys2Proof.Laws Sys2Proof.Proofs.Lifecycle

/-- Settles O7: the step answers `resetMachine` of the state with the event taken, whose fields are the clauses. -/
theorem resetRestoresResetValues : Obligations.ResetRestoresResetValues := by
  intro s rest hp
  exact ⟨resetMachine { s with pending := rest }, step_reset hp, resetMachine_lstate _, resetMachine_errCause _,
    resetMachine_cfg _, resetMachine_derived _, resetMachine_engine _, resetMachine_pending _, resetMachine_responses _⟩

end Sys2Proof.Proofs.ResetAndHazards
